-- ==== Sys2Proof/Word.lean ====
section
/-! DEFINITION. The byte, the one datum of both buffers ("an ordered, fixed-length sequence of 8-bit values",
spec/10_state.md R10). Lengths, sizes and indices are natural numbers (spec/00_scope.md R7). -/

namespace Sys2Proof

/-- A byte: bit 7 is the most significant, bit 0 the least (R7). -/
abbrev Byte := BitVec 8

/-- The value of the command register `OP`, 2 bits (R12). -/
abbrev CommandCode := BitVec 2

end Sys2Proof
end

