-- ==== Sys2Proof/Config.lean ====
section
/-! DEFINITION. The constants the document fixes (spec/00_scope.md R5), the parameters it leaves open (R6), and
the free values (spec/60_exceptions.md R109: what the internal registers hold after an exception). -/

namespace Sys2Proof.Config

/-- `MIN_RUN`, the least run length the encoder emits (R5). -/
@[simp] abbrev minRun : Nat := 2

/-- `MAX_RUN`, the greatest run length (R5). -/
@[simp] abbrev maxRun : Nat := 128

/-- `MIN_LIT`, the least literal length (R5). -/
@[simp] abbrev minLit : Nat := 1

/-- `MAX_LIT`, the greatest literal length (R5). -/
@[simp] abbrev maxLit : Nat := 128

/-- `RUN_PKT_BYTES`, the encoded size of a run packet (R5). -/
@[simp] abbrev runPacketBytes : Nat := 2

/-- `HDR_BYTES`, the size of a header (R5). -/
@[simp] abbrev headerBytes : Nat := 1

/-- What the cursor `ip` holds after the exception of the given number: a FREE VALUE ("keep no architected
value", R109; log entry 6). -/
opaque freeIp : Nat → Nat

/-- What the accumulator `acc` holds after the exception of the given number: a FREE VALUE (R109; log entry 6). -/
opaque freeAcc : Nat → Nat

/-- What the write position `wp` holds after the exception of the given number: a FREE VALUE (R109; log entry 6). -/
opaque freeWp : Nat → Nat

/-- The parameters the document leaves open (R6). The machine's rules do not read them (its numbers are
naturals, R100; log entry 2); the predicates that speak of register widths take them as an argument. -/
structure Params where
  /-- `LEN_W`, the width in bits of `IN_LEN` and `ip`. -/
  lenW : Nat
  /-- `IN_MEM_BYTES`, the physical size of `IN`. -/
  inMemBytes : Nat
  /-- `OUT_MEM_BYTES`, the physical size of `OUT`. -/
  outMemBytes : Nat
  deriving DecidableEq, Repr

/-- `LEN_W` is at least 1 (R6). -/
abbrev Params.Legal (p : Params) : Prop := 1 ≤ p.lenW

/-- `SIZE_W = LEN_W + 7`, the width of `OUT_CAP`, `RESULT`, `acc` and `wp` (R6). -/
def Params.sizeW (p : Params) : Nat := p.lenW + 7

end Sys2Proof.Config
end

