-- ==== Sys2Proof/Syntax.lean ====
section
/-! DEFINITION. The instructions: one constructor per row of spec/opcode_table.json, in the notation of
spec/30_encoding.md R49. -/

namespace Sys2Proof

/-- The two packets of the encoded stream and the four commands of the host (spec/00_scope.md section 6,
"Instructions. Two levels"). -/
inductive Instr where
  /-- `RUN c, v`: `count` copies of the byte `value` (R43, R75). -/
  | run (count : Nat) (value : Byte)
  /-- `LIT c; b1 .. bc`: the bytes of `payload` verbatim; `c` is the payload's length (R44, R76). -/
  | lit (payload : List Byte)
  /-- `ENC`, `encode` (R73). -/
  | enc
  /-- `DEC`, `decode` (R79). -/
  | dec
  /-- `PES`, `predicted_encoded_size` (R60). -/
  | pes
  /-- `PDS`, `predicted_decoded_size` (R64). -/
  | pds
  deriving DecidableEq, Repr

end Sys2Proof
end

