-- ==== Sys2Proof/WellFormed.lean ====
section
/-! DEFINITION. Which instructions have an encoding: the lengths a 7-bit field with "0 means 128" can say
(spec/30_encoding.md R43, R44, R49). -/

namespace Sys2Proof

/-- A run of 1 to 128 (the decoder accepts a run of 1, R47); a literal of 1 to 128 bytes; every command. -/
def Instr.wellFormed : Instr → Bool
  | .run count _ => decide (1 ≤ count) && decide (count ≤ Config.maxRun)
  | .lit payload => decide (Config.minLit ≤ payload.length) && decide (payload.length ≤ Config.maxLit)
  | .enc => true
  | .dec => true
  | .pes => true
  | .pds => true

end Sys2Proof
end

