-- ==== Sys2Proof/Decode.lean ====
section
/-! DEFINITION. The Packet Model (spec/40_packet_model.md: header parser and header generator), the decoder of
both encoding spaces, total on any bytes and rejecting by name, and after it the encoder, written from the
same tables (spec/30_encoding.md R43, R44, R46; spec/10_state.md R12). -/

namespace Sys2Proof

/-! ## The header parser -/

/-- `is_run(h)`: bit 7 of the header (R52). -/
def isRun (h : Byte) : Bool := (h &&& 0x80#8) != 0#8

/-- `stored(h)`: the 7-bit length field, zero-extended (R45, R52). -/
def stored (h : Byte) : Nat := (h &&& 0x7f#8).toNat

/-- `count(h)`: the length a header means, with 0 meaning 128 (R53). -/
def count (h : Byte) : Nat := if stored h ≠ 0 then stored h else 128

/-- `packet_size(h)`: the stream bytes of the packet, header included (R54). -/
def packetSize (h : Byte) : Nat := if isRun h then Config.runPacketBytes else Config.headerBytes + count h

/-! ## The header generator

`runHeader` and `literalHeader` here, `isRun` and `count` above: the two directions are inverse (R55). -/

/-- The bits of a run header for a length, with no check of the length: the notation `RUN c, v` (R49). -/
def runHeaderBits (n : Nat) : Byte := 0x80#8 ||| (BitVec.ofNat 8 n &&& 0x7f#8)

/-- The bits of a literal header for a length, with no check of the length (R49). -/
def literalHeaderBits (n : Nat) : Byte := BitVec.ofNat 8 n &&& 0x7f#8

/-- `run_header(n)`, partial: no value outside 2 to 128 (R50, "a model should make the function partial").
Inverse to `isRun` and `count` (R55). -/
def runHeader (n : Nat) : Option Byte :=
  if Config.minRun ≤ n ∧ n ≤ Config.maxRun then some (runHeaderBits n) else none

/-- `literal_header(n)`, partial: no value outside 1 to 128 (R51). Inverse to `isRun` and `count` (R55). -/
def literalHeader (n : Nat) : Option Byte :=
  if Config.minLit ≤ n ∧ n ≤ Config.maxLit then some (literalHeaderBits n) else none

/-! ## The decoder -/

/-- Where an instruction's bits stand: in the packet stream, or in the register `OP` ("Commands are not
packets and have no place in the stream", R46). -/
inductive Encoding where
  /-- The bytes of a packet, header first, lowest index first (R33). -/
  | stream (bytes : List Byte)
  /-- The value of the register `OP` (R12). -/
  | opRegister (code : CommandCode)
  deriving DecidableEq, Repr

/-- Why bytes are not a packet. No header value is among the reasons (R47). -/
inductive DecodeError where
  /-- There is no header byte: the stream has ended. -/
  | endOfStream
  /-- A run header with no value byte after it (R104, RUN). -/
  | missingValue
  /-- A literal header that claims more bytes than are there (R104, LIT). -/
  | missingPayload (claimed present : Nat)
  deriving DecidableEq, Repr

/-- Read one packet from the front of a stream: the packet and the bytes after it, or the reason there is none
(R43, R44, R48: the header alone tells the length). -/
def decodePacket : List Byte → Except DecodeError (Instr × List Byte)
  | [] => .error .endOfStream
  | h :: rest =>
    if isRun h then
      match rest with
      | [] => .error .missingValue
      | v :: rest' => .ok (.run (count h) v, rest')
    else if rest.length < count h then .error (.missingPayload (count h) rest.length)
    else .ok (.lit (rest.take (count h)), rest.drop (count h))

/-- The command a value of `OP` selects; all four are legal (R12). -/
def decodeCommand (code : CommandCode) : Instr :=
  match code.toFin with
  | 0 => .enc
  | 1 => .dec
  | 2 => .pes
  | 3 => .pds

/-- The decoder of both spaces. -/
def decode : Encoding → Except DecodeError (Instr × List Byte)
  | .stream bytes => decodePacket bytes
  | .opRegister code => .ok (decodeCommand code, [])

/-- The packets of a whole stream, read from its first byte (R42, R48), with fuel for the number of packets;
`none` when the last packet is cut short. -/
def decodeStream : Nat → List Byte → Option (List Instr)
  | 0, bytes => if bytes = [] then some [] else none
  | _ + 1, [] => some []
  | fuel + 1, h :: rest =>
    match decodePacket (h :: rest) with
    | .ok (i, rest') => (decodeStream fuel rest').map (i :: ·)
    | .error _ => none

/-! ## The encoder -/

/-- The bits of an instruction, where they stand (R43, R44, R12). -/
def encode : Instr → Encoding
  | .run c v => .stream [runHeaderBits c, v]
  | .lit payload => .stream (literalHeaderBits payload.length :: payload)
  | .enc => .opRegister 0
  | .dec => .opRegister 1
  | .pes => .opRegister 2
  | .pds => .opRegister 3

/-- The stream bytes of a packet; a command has none (R46). -/
def packetBytes (i : Instr) : List Byte :=
  match encode i with
  | .stream bytes => bytes
  | .opRegister _ => []

/-- The stream that is the concatenation of packets "with no padding" (R42). -/
def encodeStream (packets : List Instr) : List Byte := packets.flatMap packetBytes

/-! ## The host's numbering of an instruction's bits -/

/-- The first `n` bytes of a number, its least significant byte first: the order in which
spec/opcode_table.json's bits follow one another from byte to byte. -/
def tableBytes : Nat → Nat → List Byte
  | 0, _ => []
  | n + 1, w => BitVec.ofNat 8 w :: tableBytes n (w / 256)

/-- The bytes of the packet a table word stands for: as many as its header says (R48), the bits the table does
not give being zero. -/
def packetOfTableWord (nbits w : Nat) : List Byte :=
  tableBytes (packetSize (BitVec.ofNat 8 (w % 2 ^ nbits))) (w % 2 ^ nbits)

/-- The instruction whose bits are `w`, `nbits` of them given and the rest zero. The table's two spaces are not
told apart by the bits: at most 8 bits with a value below 4 are read as the register `OP`, everything else as a
packet (DESIGN CHOICE, log entry 11). -/
def decodeTableWord (nbits w : Nat) : Option Instr :=
  if nbits ≤ 8 ∧ w % 2 ^ nbits < 4 then some (decodeCommand (BitVec.ofNat 2 (w % 2 ^ nbits)))
  else
    match decodePacket (packetOfTableWord nbits w) with
    | .ok (i, _) => some i
    | .error _ => none

end Sys2Proof
end

