-- ==== Sys2Proof/Machine/State.lean ====
section
/-! DEFINITION. The state of one engine (spec/10_state.md R9: "exactly the following, and nothing else") with the
host's coming moves, the reasons a step can stop, and the state after reset (R28). -/

namespace Sys2Proof.Machine

/-- `STATUS`, an enumeration of 3 bits (R15). -/
inductive Status where
  /-- 0: no operation has been started since reset. -/
  | idle
  /-- 1: an operation is running. -/
  | busy
  /-- 2: the last operation ended without error. -/
  | done
  /-- 3: the last operation ended with `MalformedStream`. -/
  | errMalformed
  /-- 4: the last operation ended with `AllocationFailure`. -/
  | errAlloc
  deriving DecidableEq, Repr

/-- `phase`, an enumeration of 2 bits that sequences one operation (R22). -/
inductive Phase where
  /-- 0, `P_IDLE`: no operation running. -/
  | idle
  /-- 1, `P_SIZE`: the size pass. -/
  | size
  /-- 2, `P_FILL`: the fill pass. -/
  | fill
  deriving DecidableEq, Repr

/-- The two exceptions of the machine (spec/60_exceptions.md R103). Taking one is a next state, not a stop. -/
inductive CodecError where
  /-- `MalformedStream` (R104). -/
  | malformedStream
  /-- `AllocationFailure` (R105). -/
  | allocationFailure
  deriving DecidableEq, Repr

/-- A byte memory: the bytes that have a value, by rising index. An index that is not listed has no value the
model knows (R28, R109; log entries 4 and 5). -/
abbrev Memory := List Host.Cell

/-- What the host does in one step (spec/44_commands.md R85; spec/70_reset_and_hazards.md R118, R119). Reads
change nothing and are functions of the state (Machine/HostInterface.lean). -/
inductive HostMove where
  /-- The host makes no move (it may read `STATUS`): the engine takes its enabled step, if there is one. -/
  | wait
  /-- Write the byte `v` at index `a` of `IN`. -/
  | writeIn (a : Nat) (v : Byte)
  /-- Write the byte `v` at index `a` of `OUT` ("write allowed, pointless", R27). -/
  | writeOut (a : Nat) (v : Byte)
  /-- Write `OP`. -/
  | writeOp (code : CommandCode)
  /-- Write `IN_LEN`. -/
  | writeInLen (n : Nat)
  /-- Write `OUT_CAP`. -/
  | writeOutCap (n : Nat)
  /-- Write the `START` strobe (R17). -/
  | start
  /-- Assert reset (R118). -/
  | reset
  deriving DecidableEq, Repr

/-- Why a step stops the model with a fault. Neither is a behaviour of the hardware; both are safe: where the
machine would go on, the model stops. -/
inductive Fault where
  /-- The engine needs a byte of `IN` below `IN_LEN` that nothing has written: "a fault of the launch" (R28).
  Raised by the packet steps of every command. SAFE. -/
  | inputNotWritten
  /-- `STATUS` is `BUSY` in a combination of `phase` and `OP` for which R81 lists no step ("never reached").
  Raised by every command. SAFE. -/
  | noStepEnabled
  deriving DecidableEq, Repr

/-- Why the model has no meaning for a step. -/
inductive Refusal where
  /-- The instruction named has no meaning yet. SAFE. -/
  | notModelled (mnemonic : String)
  /-- The host makes an access that R27 forbids while `STATUS = BUSY`: "outside the model" (R27, R120). Raised by
  the host's moves. SAFE. -/
  | hostAccessWhileBusy
  /-- A write of `OUT` at or above `OUT_CAP`, outside the domain of `MemWrite` (R30); no rule makes one from a state
  a run reaches (R101). Raised by the fill steps. SAFE. -/
  | writeOutsideCapacity
  deriving DecidableEq, Repr

/-- The state of the engine, and the host's coming moves. -/
structure State where
  /-- `IN` (R10). -/
  inMem : Memory
  /-- `OUT` (R11). -/
  outMem : Memory
  /-- `OP` (R12). -/
  op : CommandCode
  /-- `IN_LEN` (R13). -/
  inLen : Nat
  /-- `OUT_CAP` (R14). -/
  outCap : Nat
  /-- `STATUS` (R15). -/
  status : Status
  /-- `RESULT` (R16). -/
  result : Nat
  /-- `phase` (R22). -/
  phase : Phase
  /-- `ip`, the scan cursor (R19). -/
  ip : Nat
  /-- `acc`, the size accumulator (R20). -/
  acc : Nat
  /-- `wp`, the output write position (R21). -/
  wp : Nat
  /-- The model's own: the host's coming moves, the next first; empty means the host makes no more moves
  (log entry 7). -/
  host : List HostMove
  /-- The model's own: how many times free values have been drawn (log entry 6). -/
  freeCount : Nat
  deriving DecidableEq, Repr

/-- The state after reset (R28, R118). `OP`, `IN_LEN` and `OUT_CAP` are unspecified there and hold 0 here (DESIGN
CHOICE, log entry 3); both memories are unspecified and list nothing (log entry 4). -/
def State.reset : State where
  inMem := []
  outMem := []
  op := 0
  inLen := 0
  outCap := 0
  status := .idle
  result := 0
  phase := .idle
  ip := 0
  acc := 0
  wp := 0
  host := []
  freeCount := 0

end Sys2Proof.Machine
end

