-- ==== Sys2Proof/Machine/Flags.lean ====
section
/-! DEFINITION. The machine has no flags (spec/10_state.md R24). These are the transient predicates R24 lists, the
codes of the enumerations, and the bounded successor comparison (spec/42_encoder.md R65). -/

namespace Sys2Proof.Machine

/-- The 3-bit code of a `STATUS` (R15). -/
def Status.code : Status → BitVec 3
  | .idle => 0
  | .busy => 1
  | .done => 2
  | .errMalformed => 3
  | .errAlloc => 4

/-- The 2-bit code of a `phase` (R22). -/
def Phase.code : Phase → BitVec 2
  | .idle => 0
  | .size => 1
  | .fill => 2

/-- The `STATUS` an exception leaves (R103). -/
def CodecError.status : CodecError → Status
  | .malformedStream => .errMalformed
  | .allocationFailure => .errAlloc

/-- "More input": the negation of "end of input", `ip = IN_LEN` (R24, R81). -/
abbrev State.moreInput (s : State) : Prop := s.ip < s.inLen

/-- "Capacity exceeded", `acc > OUT_CAP` (R24, R105). -/
abbrev State.capacityExceeded (s : State) : Prop := s.outCap < s.acc

/-- "Payload past end" of a packet of `size` stream bytes whose header is at `ip` (R24, R104): for a RUN packet, of
size 2, `ip + 1 >= IN_LEN`; for a LIT packet, of size `1 + count`, `ip + 1 + count > IN_LEN`. -/
abbrev State.payloadPastEnd (s : State) (size : Nat) : Prop := s.inLen < s.ip + size

/-- `differs(x, N, j)`: the last byte has no successor and counts as different from it, and then nothing is read
(R65). `x` is the byte source of length `N`; no value when a byte that is needed has none. -/
def differs (x : Nat → Option Byte) (N j : Nat) : Option Bool :=
  if N ≤ j + 1 then some true
  else
    match x j, x (j + 1) with
    | some a, some b => some (a != b)
    | _, _ => none

end Sys2Proof.Machine
end

