-- ==== Sys2Proof/Machine/Operands.lean ====
section
/-! DEFINITION. The reads of `IN` (spec/20_memory.md R29, R31) and the fetch of the packet at the cursor
(spec/43_decoder.md R74). -/

namespace Sys2Proof.Machine

/-- The byte a memory lists at an index; no value where none is listed. The list rises by index, so the search
ends at the first larger one. -/
def Memory.read : Memory → Nat → Option Byte
  | [], _ => none
  | (b, v) :: rest, a => if a = b then some v else if a < b then none else Memory.read rest a

/-- `MemRead(IN, a, 1)`: no value at or above `IN_LEN` (R29), nor where nothing has been written (R28). -/
def State.inByte (s : State) (a : Nat) : Option Byte := if a < s.inLen then s.inMem.read a else none

/-- The `n` bytes of a byte source from index `a` on, if each has a value. -/
def readBytes (x : Nat → Option Byte) (a : Nat) : Nat → Option (List Byte)
  | 0 => some []
  | n + 1 =>
    match x a, readBytes x (a + 1) n with
    | some b, some bs => some (b :: bs)
    | _, _ => none

/-- The whole input `IN[0 .. IN_LEN)`, if every byte of it has been written (R119 step 2). -/
def State.input (s : State) : Option (List Byte) := readBytes s.inByte 0 s.inLen

/-- What the fetch at the cursor finds. -/
inductive Fetched where
  /-- A whole packet. -/
  | packet (i : Instr)
  /-- A header whose payload runs past the end of the stream (R104). -/
  | truncated
  /-- A byte of the packet was never written. -/
  | unwritten
  deriving DecidableEq, Repr

/-- Fetch the packet at the cursor (R74): the header first, then the check that the payload lies inside the stream,
and only then the payload ("it makes that check before it reads any payload byte"). -/
def State.fetchPacket (s : State) : Fetched :=
  match s.inByte s.ip with
  | none => .unwritten
  | some h =>
    if s.payloadPastEnd (packetSize h) then .truncated
    else
      match readBytes s.inByte s.ip (packetSize h) with
      | none => .unwritten
      | some bytes =>
        match decodePacket bytes with
        | .ok (i, _) => .packet i
        | .error _ => .truncated

end Sys2Proof.Machine
end

