-- ==== Sys2Proof/Machine/Ops.lean ====
section
/-! DEFINITION. The operations the meanings share: memory, the beginning and the ends of an operation
(spec/44_commands.md R80, R82, R83), taking an exception (spec/60_exceptions.md R109), writing output bytes
(spec/20_memory.md R30), and the sequencing table (R81). -/

namespace Sys2Proof.Machine

/-- The three outcomes of a step of this machine. -/
abbrev Out := Host.Outcome State Fault Refusal

/-! ## Memory -/

/-- The canonical form: indices strictly rising. An unlisted index reads as no value, so no entry can equal it. -/
abbrev Memory.wf (m : Memory) : Prop := List.Pairwise (fun c d : Host.Cell => c.1 < d.1) m

/-- Give the byte at an index a value. -/
def Memory.write : Memory → Nat → Byte → Memory
  | [], a, v => [(a, v)]
  | (b, w) :: rest, a, v =>
    if a < b then (a, v) :: (b, w) :: rest
    else if a = b then (a, v) :: rest
    else (b, w) :: Memory.write rest a v

/-- Write bytes at ascending indices from `a` on (R30: "in strictly ascending index order"). -/
def Memory.writeBytes (m : Memory) (a : Nat) : List Byte → Memory
  | [] => m
  | b :: bs => Memory.writeBytes (m.write a b) (a + 1) bs

/-! ## The course of an operation -/

/-- The effect of an accepted `START` (R80). -/
def State.begin (s : State) : State :=
  { s with status := .busy, result := 0, phase := .size, ip := 0, acc := 0, wp := 0 }

/-- Taking an exception, `raise E` (R109): the status is the code of `E`, `RESULT` is 0, `phase` is `P_IDLE`; every
byte of `OUT` is unspecified, so none has a value (log entry 5); `ip`, `acc` and `wp` keep no architected value, so
they are free values (log entry 6); `IN`, `OP`, `IN_LEN` and `OUT_CAP` are unchanged. There is no return from an
exception (R110): the next `START` begins anew. -/
def State.raise (s : State) (e : CodecError) : State :=
  { s with
    status := e.status, result := 0, phase := .idle, outMem := []
    ip := Config.freeIp s.freeCount, acc := Config.freeAcc s.freeCount, wp := Config.freeWp s.freeCount
    freeCount := s.freeCount + 1 }

/-- The end of the size pass of `PES` and `PDS` (R82, first branch). -/
def State.endPrediction (s : State) : State := { s with result := s.acc, status := .done, phase := .idle }

/-- The end of the size pass of `ENC` and `DEC` (R82, the other branches): the allocation fails, or the fill pass
begins. -/
def State.endSizePass (s : State) : State :=
  if s.capacityExceeded then s.raise .allocationFailure else { s with phase := .fill, ip := 0, wp := 0 }

/-- The end of the fill pass (R83). -/
def State.endFillPass (s : State) : State := { s with result := s.wp, status := .done, phase := .idle }

/-- One size step's bookkeeping: a packet adds `size` to the predicted size and the cursor moves to `next`
(R59, R62). -/
def State.chargeSize (s : State) (size next : Nat) : State := { s with acc := s.acc + size, ip := next }

/-- One fill step's effect: the bytes are written at `OUT[wp ..)`, and `wp` and `ip` advance (R69, R70, R75, R76). A
write at or above `OUT_CAP` is outside the domain of `MemWrite` (R30). -/
def State.emit (s : State) (bytes : List Byte) (covered : Nat) : Out :=
  if s.wp + bytes.length ≤ s.outCap then
    .next { s with outMem := s.outMem.writeBytes s.wp bytes, wp := s.wp + bytes.length, ip := s.ip + covered }
  else .refused .writeOutsideCapacity

/-- The next engine step of the command with code `code`: R81's table, with R80 before it. While no operation runs
the command is launched (the host's `OP` and `START`). While an operation of another command runs the launch has no
effect ("A `START` write while `STATUS = BUSY` has no effect at all"). Otherwise `phase` and the cursor choose the
step: `sizeStep` or `endSize` in the size pass, `fillStep` or `endFill` in the fill pass. -/
def sequence (code : CommandCode) (sizeStep endSize fillStep endFill : State → Out) (s : State) : Out :=
  if s.status = .busy then
    if s.op = code then
      match s.phase with
      | .size => if s.moreInput then sizeStep s else endSize s
      | .fill => if s.moreInput then fillStep s else endFill s
      | .idle => .fault .noStepEnabled
    else .next s
  else .next { s with op := code }.begin

/-- No step: the fill pass of a command that has none (R81: "never reached"). -/
def noStep (_ : State) : Out := .fault .noStepEnabled

end Sys2Proof.Machine
end

