-- ==== Sys2Proof/Machine/Grouper.lean ====
section
/-! DEFINITION. The packet scanner and the run/literal grouper (spec/42_encoder.md R66, R67, R68) and the bytes of an
emitted packet (R69, R70): ONE definition, which the Encoder, the Size Predictor and the functions `enc` and `pes`
all call (spec/41_size_predictor.md R58). The byte source `x` of length `N` is `IN` or a byte sequence. -/

namespace Sys2Proof.Machine

/-- The kind of a packet. -/
inductive Kind where
  | run
  | lit
  deriving DecidableEq, Repr

/-- The loop of `run_scan`: while `r < 128` and the byte at `i + r - 1` equals its successor, `r <- r + 1` ("exactly
the negation of `differs(x, N, i + r - 1)`", R66). -/
def runLoop (x : Nat → Option Byte) (N i : Nat) : Nat → Nat → Option Nat
  | 0, r => some r
  | fuel + 1, r =>
    if r < Config.maxRun then
      match differs x N (i + r - 1) with
      | some false => runLoop x N i fuel (r + 1)
      | some true => some r
      | none => none
    else some r

/-- `run_scan(x, N, i)` (R66). -/
def runScan (x : Nat → Option Byte) (N i : Nat) : Option Nat := runLoop x N i Config.maxRun 1

/-- The loop of `lit_scan`: while `l < 128`, `i + l < N` and the byte at `i + l` differs from its successor,
`l <- l + 1` (R67). -/
def litLoop (x : Nat → Option Byte) (N i : Nat) : Nat → Nat → Option Nat
  | 0, l => some l
  | fuel + 1, l =>
    if l < Config.maxLit ∧ i + l < N then
      match differs x N (i + l) with
      | some true => litLoop x N i fuel (l + 1)
      | some false => some l
      | none => none
    else some l

/-- `lit_scan(x, N, i)` (R67). -/
def litScan (x : Nat → Option Byte) (N i : Nat) : Option Nat := litLoop x N i Config.maxLit 0

/-- `group(x, N, i)`: the kind and length of the packet that covers the input from index `i` (R68). -/
def group (x : Nat → Option Byte) (N i : Nat) : Option (Kind × Nat) :=
  match runScan x N i with
  | none => none
  | some r =>
    if Config.minRun ≤ r then some (.run, r)
    else
      match litScan x N i with
      | none => none
      | some l => some (.lit, l)

/-- What a packet adds to the encoded size: "2 bytes per run packet; `1 + literal_length` per literal packet"
(R57). -/
def groupSize : Kind × Nat → Nat
  | (.run, _) => Config.runPacketBytes
  | (.lit, len) => Config.headerBytes + len

/-- The bytes of the packet emitted for a group found at `i` (R69, R70). No value when a byte has none; the header's
domain is met by every group (R68). -/
def groupBytes (x : Nat → Option Byte) (i : Nat) : Kind × Nat → Option (List Byte)
  | (.run, len) =>
    match runHeader len, x i with
    | some h, some v => some [h, v]
    | _, _ => none
  | (.lit, len) =>
    match literalHeader len, readBytes x i len with
    | some h, some bytes => some (h :: bytes)
    | _, _ => none

end Sys2Proof.Machine
end

