-- ==== Sys2Proof/Machine/SizePredictor.lean ====
section
/-! DEFINITION. The Size Predictor (spec/41_size_predictor.md): the two size steps, and the meanings of `PES` and
`PDS`. -/

namespace Sys2Proof.Machine

/-- The encoded-size step (R59): one packet-to-be. -/
def encodedSizeStep (s : State) : Out :=
  match group s.inByte s.inLen s.ip with
  | none => .fault .inputNotWritten
  | some g => .next (s.chargeSize (groupSize g) (s.ip + g.2))

/-- The decoded-size step (R62): one packet; its header is the only byte read, and the cursor is clamped to
`IN_LEN`. -/
def decodedSizeStep (s : State) : Out :=
  match s.inByte s.ip with
  | none => .fault .inputNotWritten
  | some h => .next (s.chargeSize (count h) (min (s.ip + packetSize h) s.inLen))

/-- `PES` (R60): the size pass with R59, then the end of R82. -/
def execPes (s : State) : Out := sequence 2 encodedSizeStep (fun s => .next s.endPrediction) noStep noStep s

/-- `PDS` (R64): the size pass with R62, then the end of R82. -/
def execPds (s : State) : Out := sequence 3 decodedSizeStep (fun s => .next s.endPrediction) noStep noStep s

end Sys2Proof.Machine
end

