-- ==== Sys2Proof/Machine/Decoder.lean ====
section
/-! DEFINITION. The Decoder (spec/43_decoder.md): the packets `RUN` and `LIT`, the fill step, and the meaning of
`DEC`. -/

namespace Sys2Proof.Machine

/-- `RUN c, v`, the run expander (R75): `MalformedStream` when the value byte is past the end of the stream, else `c`
copies of `v`. -/
def execRun (c : Nat) (v : Byte) (s : State) : Out :=
  if s.payloadPastEnd Config.runPacketBytes then .next (s.raise .malformedStream)
  else s.emit (List.replicate c v) Config.runPacketBytes

/-- `LIT c; b1 .. bc`, the literal copy (R76): `MalformedStream` when the payload runs past the end of the stream, else
the payload verbatim. -/
def execLit (payload : List Byte) (s : State) : Out :=
  if s.payloadPastEnd (Config.headerBytes + payload.length) then .next (s.raise .malformedStream)
  else s.emit payload (Config.headerBytes + payload.length)

/-- The decoder fill step (R74): fetch the packet at the cursor and execute it. A packet whose payload runs past the
end of the stream raises `MalformedStream` before any byte of its payload is read (R75, R76, R104). The fetch
gives no command (R46). -/
def decoderFillStep (s : State) : Out :=
  match s.fetchPacket with
  | .packet (.run c v) => execRun c v s
  | .packet (.lit payload) => execLit payload s
  | .packet .enc => .fault .noStepEnabled
  | .packet .dec => .fault .noStepEnabled
  | .packet .pes => .fault .noStepEnabled
  | .packet .pds => .fault .noStepEnabled
  | .truncated => .next (s.raise .malformedStream)
  | .unwritten => .fault .inputNotWritten

/-- `DEC` (R79): the size pass with R62, the capacity check of R82, the fill pass with R74, the end of R83. -/
def execDec (s : State) : Out :=
  sequence 1 decodedSizeStep (fun s => .next s.endSizePass) decoderFillStep (fun s => .next s.endFillPass) s

end Sys2Proof.Machine
end

