-- ==== Sys2Proof/Machine/Encoder.lean ====
section
/-! DEFINITION. The Encoder (spec/42_encoder.md): the fill step, and the meaning of `ENC`. -/

namespace Sys2Proof.Machine

/-- The encoder fill step (R71): group at the cursor, emit the packet (R69, R70), advance by the group's length. -/
def encoderFillStep (s : State) : Out :=
  match group s.inByte s.inLen s.ip with
  | none => .fault .inputNotWritten
  | some g =>
    match groupBytes s.inByte s.ip g with
    | none => .fault .inputNotWritten
    | some bytes => s.emit bytes g.2

/-- `ENC` (R73): the size pass with R59, the capacity check of R82, the fill pass with R71, the end of R83. -/
def execEnc (s : State) : Out :=
  sequence 0 encodedSizeStep (fun s => .next s.endSizePass) encoderFillStep (fun s => .next s.endFillPass) s

end Sys2Proof.Machine
end

