-- ==== Sys2Proof/Machine/Dispatch.lean ====
section
/-! DEFINITION. The meaning of every instruction, one arm per constructor of Instr. -/

namespace Sys2Proof.Machine

def exec (i : Instr) (s : State) : Host.Outcome State Fault Refusal :=
  match i with
  | .run c v => Sys2Proof.Machine.execRun c v s
  | .lit payload => Sys2Proof.Machine.execLit payload s
  | .enc => Sys2Proof.Machine.execEnc s
  | .dec => Sys2Proof.Machine.execDec s
  | .pes => Sys2Proof.Machine.execPes s
  | .pds => Sys2Proof.Machine.execPds s

end Sys2Proof.Machine
end

