-- ==== Sys2Proof/Machine/HostInterface.lean ====
section
/-! DEFINITION. The engine's step (spec/44_commands.md R81), the host's moves (R80, R85; spec/10_state.md R27;
spec/70_reset_and_hazards.md R118), what the host reads, the levels of the output ports (R86), and where an
instruction is placed so that the next step runs it. -/

namespace Sys2Proof.Machine

/-- The engine's step: while an operation runs, a step of the command `OP` holds (R81); while none runs the engine
"is idle and does nothing until `START`; all state is kept" (spec/60_exceptions.md R117). -/
def State.engineStep (s : State) : Out := if s.status = .busy then exec (decodeCommand s.op) s else .next s

/-- Reset (R118): every piece of the engine's state at its value after reset, at any time; the host's coming moves
are not the engine's. -/
def State.hardwareReset (s : State) : State := { State.reset with host := s.host, freeCount := s.freeCount }

/-- An access R27 allows only while `STATUS` is not `BUSY`; otherwise the model has no such move (R120). -/
def State.ifOwned (s : State) (t : State) : Out :=
  if s.status = .busy then .refused .hostAccessWhileBusy else .next t

/-- The effect of one move of the host. A `START` while an operation runs has no effect at all (R80). -/
def State.hostMove (s : State) : HostMove → Out
  | .wait => s.engineStep
  | .writeIn a v => s.ifOwned { s with inMem := s.inMem.write a v }
  | .writeOut a v => s.ifOwned { s with outMem := s.outMem.write a v }
  | .writeOp code => s.ifOwned { s with op := code }
  | .writeInLen n => s.ifOwned { s with inLen := n }
  | .writeOutCap n => s.ifOwned { s with outCap := n }
  | .start => if s.status = .busy then .next s else exec (decodeCommand s.op) s
  | .reset => .next s.hardwareReset

/-! ## What the host reads (R27) -/

/-- `STATUS`, readable at any time. -/
def State.hostReadStatus (s : State) : BitVec 3 := s.status.code

/-- `RESULT`; while `BUSY` it is not valid (R16). -/
def State.hostReadResult (s : State) : Option Nat := if s.status = .busy then none else some s.result

/-- A byte of `OUT`; no value while `BUSY` (R11) nor where the byte is unspecified (R28, R109). -/
def State.hostReadOut (s : State) (a : Nat) : Option Byte := if s.status = .busy then none else s.outMem.read a

/-- A byte of `IN`; no value while `BUSY` (R27) nor where nothing has been written. -/
def State.hostReadIn (s : State) (a : Nat) : Option Byte := if s.status = .busy then none else s.inMem.read a

/-- `OP`, `IN_LEN` and `OUT_CAP`: the host "must not write" them while `BUSY` and may read them. -/
def State.hostReadOp (s : State) : CommandCode := s.op

/-- `IN_LEN`, as the host reads it. -/
def State.hostReadInLen (s : State) : Nat := s.inLen

/-- `OUT_CAP`, as the host reads it. -/
def State.hostReadOutCap (s : State) : Nat := s.outCap

/-- The bytes the host collects after `ENC` or `DEC`: `OUT[0 .. RESULT)`, when `STATUS` is `DONE` (R85). -/
def State.collect (s : State) : Option (List Byte) :=
  if s.status = .done then readBytes s.outMem.read 0 s.result else none

/-! ## The levels of the output ports (R86) -/

/-- `busy`: 1 exactly when `STATUS = BUSY`. -/
def State.busyPort (s : State) : Bool := s.status == .busy

/-- `done`: 1 exactly when `STATUS` is `DONE`, `ERR_MALFORMED` or `ERR_ALLOC`. -/
def State.donePort (s : State) : Bool :=
  match s.status with
  | .idle => false
  | .busy => false
  | .done => true
  | .errMalformed => true
  | .errAlloc => true

/-- `err`, valid when `done` is 1: 0 none, 1 `MalformedStream`, 2 `AllocationFailure` (R103). -/
def State.errPort (s : State) : Option (BitVec 2) :=
  match s.status with
  | .idle => none
  | .busy => none
  | .done => some 0
  | .errMalformed => some 1
  | .errAlloc => some 2

/-! ## Placing an instruction where the next step runs it (log entry 12) -/

/-- Place a command: no operation running, the code in `OP`, and a `START` as the host's next move. -/
def State.placeCommand (s : State) (code : CommandCode) : State :=
  { s with
    op := code
    status := if s.status = .busy then .idle else s.status
    phase := .idle
    host := .start :: s.host }

/-- Place a packet: a fill pass of `DEC` in progress with the packet's bytes at the cursor, an input and a capacity
that hold it, and a host that leaves the next step to the engine. -/
def State.placePacket (s : State) (bytes : List Byte) : State :=
  let grown := match decodePacket bytes with
    | .ok (.run c _, _) => c
    | .ok (.lit payload, _) => payload.length
    | _ => 0
  { s with
    op := 1
    status := .busy
    phase := .fill
    inMem := s.inMem.writeBytes s.ip bytes
    inLen := max s.inLen (s.ip + bytes.length)
    acc := max s.acc (s.wp + grown)
    outCap := max s.outCap (max s.acc (s.wp + grown))
    host := .wait :: s.host }

/-- Place the instruction a table word stands for. -/
def State.placeTableWord (s : State) (nbits w : Nat) : State :=
  match decodeTableWord nbits w with
  | some .enc => s.placeCommand 0
  | some .dec => s.placeCommand 1
  | some .pes => s.placeCommand 2
  | some .pds => s.placeCommand 3
  | some (.run _ _) => s.placePacket (packetOfTableWord nbits w)
  | some (.lit _) => s.placePacket (packetOfTableWord nbits w)
  | none => s

end Sys2Proof.Machine
end

