-- ==== Sys2Proof/Machine/Step.lean ====
section
/-! DEFINITION. One step of the machine: the host's next move, or the engine's step when the host makes none. -/

namespace Sys2Proof.Machine

/-- One step. The host's next move is taken off its list; with no move left the engine takes its enabled step. -/
def step (s : State) : Host.Outcome State Fault Refusal :=
  match s.host with
  | [] => s.engineStep
  | m :: rest => { s with host := rest }.hostMove m

/-- `s` with the instruction whose table bits are `w` placed so that the very next step runs it. -/
def State.withFetchWord (s : State) (nbits w : Nat) : State := s.placeTableWord nbits w

end Sys2Proof.Machine
end

