-- ==== Sys2Proof/Machine/Codec.lean ====
section
/-! DEFINITION. The four functions of the core boundary as functions of byte sequences: `pes` (spec/41_size_predictor.md
R57), `pds` (R61), `enc` (spec/42_encoder.md R72), `dec` (spec/43_decoder.md R78), each with fuel for its number of
packets, and the packet walk (spec/45_laws.md R96). They say what an operation of the engine must produce (R84);
no step of the engine calls one. -/

namespace Sys2Proof.Machine

/-- A byte sequence as a byte source. -/
abbrev bytesOf (x : List Byte) : Nat → Option Byte := fun j => x[j]?

/-- The sum of packet sizes from index `i` on (R57). -/
def pesFrom (x : List Byte) : Nat → Nat → Nat
  | 0, _ => 0
  | fuel + 1, i =>
    if i < x.length then
      match group (bytesOf x) x.length i with
      | some g => groupSize g + pesFrom x fuel (i + g.2)
      | none => 0
    else 0

/-- `pes(x)`, `predicted_encoded_size` (R57). -/
def pes (x : List Byte) : Nat := pesFrom x x.length 0

/-- The sum of declared counts from the header at index `i` on (R61): headers only, the cursor clamped to the
length (R63). -/
def pdsFrom (y : List Byte) : Nat → Nat → Nat
  | 0, _ => 0
  | fuel + 1, i =>
    match y[i]? with
    | some h => count h + pdsFrom y fuel (min (i + packetSize h) y.length)
    | none => 0

/-- `pds(y)`, `predicted_decoded_size` (R61, R63). -/
def pds (y : List Byte) : Nat := pdsFrom y y.length 0

/-- The packets for the input from index `i` on (R72). -/
def encFrom (x : List Byte) : Nat → Nat → List Byte
  | 0, _ => []
  | fuel + 1, i =>
    if i < x.length then
      match group (bytesOf x) x.length i with
      | some g =>
        match groupBytes (bytesOf x) i g with
        | some bytes => bytes ++ encFrom x fuel (i + g.2)
        | none => []
      | none => []
    else []

/-- `enc(x)`, `encode` (R72). -/
def enc (x : List Byte) : List Byte := encFrom x x.length 0

/-- The expansion of the packets from the header at index `i` on; `none` is `MalformedStream` (R78). -/
def decFrom (y : List Byte) : Nat → Nat → Option (List Byte)
  | 0, _ => some []
  | fuel + 1, i =>
    match y[i]? with
    | none => some []
    | some h =>
      if isRun h then
        match y[i + 1]? with
        | none => none
        | some v => (decFrom y fuel (i + 2)).map (List.replicate (count h) v ++ ·)
      else if y.length < i + 1 + count h then none
      else (decFrom y fuel (i + 1 + count h)).map ((y.drop (i + 1)).take (count h) ++ ·)

/-- `dec(y)`, `decode`: the raw bytes, or `none` for `MalformedStream` (R78). -/
def dec (y : List Byte) : Option (List Byte) := decFrom y y.length 0

/-- Where the packet walk from index `i` ends: the first `pk >= N` (R96). -/
def walkEnd (y : List Byte) : Nat → Nat → Nat
  | 0, i => i
  | fuel + 1, i =>
    match y[i]? with
    | some h => walkEnd y fuel (i + packetSize h)
    | none => i

/-- A valid stream: the packet walk ends exactly at the stream's length (R96). -/
abbrev ValidStream (y : List Byte) : Prop := walkEnd y y.length 0 = y.length

/-- A canonical stream: valid, and the encoder's output for its own decoded bytes (R98). -/
abbrev CanonicalStream (y : List Byte) : Prop := (dec y).map enc = some y

/-! ## The packets of a canonical stream (R98) -/

/-- Is it a packet, not a command? -/
def isPacket : Instr → Bool
  | .run _ _ => true
  | .lit _ => true
  | .enc => false
  | .dec => false
  | .pes => false
  | .pds => false

/-- The first decoded byte of a packet, its `head` (R98). -/
def packetHead : Instr → Option Byte
  | .run _ v => some v
  | .lit payload => payload.head?
  | .enc => none
  | .dec => none
  | .pes => none
  | .pds => none

/-- The conditions R98 puts on a packet alone: a run has at least 2 bytes (1); a literal has no two equal adjacent
bytes (3). -/
def CanonicalPacket : Instr → Prop
  | .run c _ => 2 ≤ c
  | .lit payload => List.IsChain (· ≠ ·) payload
  | .enc => False
  | .dec => False
  | .pes => False
  | .pds => False

/-- The conditions R98 puts on a packet and the packet that follows it: a run below 128 is not continued (2); a literal
gives up its last byte to no following run (4); only a literal of 128 is followed by a literal (5). -/
def CanonicalPair : Instr → Instr → Prop
  | .run c v, q => c < 128 → packetHead q ≠ some v
  | .lit payload, q => payload.getLast? ≠ packetHead q ∧ (payload.length < 128 → ∃ c v, q = .run c v)
  | _, _ => True

/-- The five conditions of R98 on the packets of a stream. -/
def CanonicalPackets (packets : List Instr) : Prop :=
  (∀ p ∈ packets, CanonicalPacket p) ∧ List.IsChain CanonicalPair packets

end Sys2Proof.Machine
end

