-- ==== Sys2Proof/Safety.lean ====
section
/-! DEFINITION. The terms claims are made in: the invariant of every step, the register widths, what the input holds, a
safe step, and runs. -/

namespace Sys2Proof.Machine

open Config (Params)

/-- `k` steps of the machine. -/
abbrev runFor (k : Nat) (s : State) : Out := Sys2Proof.core.run k s

/-- A step that is neither a fault nor a refusal. -/
def State.SafeStep (s : State) : Prop := ∃ t, step s = .next t

/-- `x` is an input the written bytes of `IN[0 .. IN_LEN)` do not contradict. With every byte written it is the
input. -/
def State.InputAgrees (s : State) (x : List Byte) : Prop :=
  x.length = s.inLen ∧ ∀ a b, s.inByte a = some b → x[a]? = some b

/-- What the packets from index `i` on add to the predicted size of the command: encoded sizes for `ENC` and `PES`
(R59), declared counts for `DEC` and `PDS` (R62). -/
def remainingSize (code : CommandCode) (x : List Byte) (i : Nat) : Nat :=
  match decodeCommand code with
  | .enc => pesFrom x x.length i
  | .pes => pesFrom x x.length i
  | .dec => pdsFrom x x.length i
  | .pds => pdsFrom x x.length i
  | .run _ _ => 0
  | .lit _ => 0

/-- The invariant of every step, in every state a run can reach and in more. -/
structure State.Inv (s : State) : Prop where
  /-- `IN` is in canonical form. -/
  in_wf : s.inMem.wf
  /-- `OUT` is in canonical form. -/
  out_wf : s.outMem.wf
  /-- "`STATUS = BUSY` exactly when `phase` is `P_SIZE` or `P_FILL`" (R22). -/
  busy_iff : s.status = .busy ↔ s.phase ≠ .idle
  /-- `0 <= ip <= IN_LEN` while an operation runs (R19). -/
  ip_le : s.status = .busy → s.ip ≤ s.inLen
  /-- In the size pass a packet adds at most 128 for each byte of input it covers (R99). -/
  size_bound : s.phase = .size → s.acc ≤ 128 * s.ip
  /-- In the size pass `acc` and what is left make the predicted size (R59, R62). -/
  size_exact : s.phase = .size → ∀ x, s.InputAgrees x →
    s.acc + remainingSize s.op x s.ip = remainingSize s.op x 0
  /-- `P_FILL` is reached by `ENC` and `DEC` only (R81). -/
  fill_op : s.phase = .fill → s.op = 0 ∨ s.op = 1
  /-- `wp <= acc <= OUT_CAP` throughout a fill pass (R21), and `acc` is bounded as at the end of the size pass. -/
  fill_bound : s.phase = .fill → s.wp ≤ s.acc ∧ s.acc ≤ s.outCap ∧ s.acc ≤ 128 * s.inLen
  /-- In the fill pass `wp` and what is left make `acc` (R101). -/
  fill_exact : s.phase = .fill → ∀ x, s.InputAgrees x → s.wp + remainingSize s.op x s.ip = s.acc

/-- A host move that the platform's parameters allow: values fit the registers (R6), the input and the capacity fit
the memories really there (R119, R123). -/
def HostMove.fits (p : Params) : HostMove → Prop
  | .wait => True
  | .writeIn a _ => a < p.inMemBytes
  | .writeOut a _ => a < p.outMemBytes
  | .writeOp _ => True
  | .writeInLen n => n < 2 ^ p.lenW ∧ n ≤ p.inMemBytes
  | .writeOutCap n => n < 2 ^ p.sizeW ∧ n ≤ p.outMemBytes
  | .start => True
  | .reset => True

/-- Every register holds a number its width can hold, `ip`, `acc` and `wp` while an operation runs (between operations
they are not architected, R18); no byte of `OUT` lies beyond the `OUT` memory; and the host's coming moves fit. -/
structure State.Fits (p : Params) (s : State) : Prop where
  inLen : s.inLen < 2 ^ p.lenW
  outCap : s.outCap < 2 ^ p.sizeW
  result : s.result < 2 ^ p.sizeW
  ip : s.status = .busy → s.ip < 2 ^ p.lenW
  acc : s.status = .busy → s.acc < 2 ^ p.sizeW
  wp : s.status = .busy → s.wp < 2 ^ p.sizeW
  capReal : s.outCap ≤ p.outMemBytes
  outReal : ∀ c ∈ s.outMem, c.1 < p.outMemBytes
  moves : ∀ m ∈ s.host, m.fits p

/-- Apply a change to the state of an outcome. -/
def mapNext (f : State → State) : Out → Out
  | .next t => .next (f t)
  | .fault r => .fault r
  | .refused r => .refused r

/-- The operation of a command from a launch state, seen as R84 sees it: the command is accepted, and after at most
`2 * IN_LEN + 2` steps (R102), before each of which `STATUS` is `BUSY`, the machine is in a state of which `Q`
holds. -/
def State.Operation (s : State) (i : Instr) (Q : State → Prop) : Prop :=
  ∃ t0 k t, exec i s = .next t0 ∧ k ≤ 2 * s.inLen + 2 ∧ runFor k t0 = .next t ∧
    (∀ j, j < k → ∃ u, runFor j t0 = .next u ∧ u.status = .busy) ∧ t.status ≠ .busy ∧ Q t

/-- `IN`, `IN_LEN` and `OUT_CAP` are unchanged (R84). -/
def State.SameInput (s t : State) : Prop := t.inMem = s.inMem ∧ t.inLen = s.inLen ∧ t.outCap = s.outCap

end Sys2Proof.Machine
end

