-- ==== Sys2Proof/Certificates/Slice0/Obligations.lean ====
section
/-! DEFINITION. The statements about the RLE codec core, one definition each, from the numbered rules of spec/. -/

open Sys2Proof Sys2Proof.Machine

/-! ## The Packet Model and the encodings -/

/-- R52, R53, R54: the run flag, the length field, the count it means and the packet's size, for every one of the 256
header bytes, by its number: `n` and `128 + n` for `n` below 128. -/
def Obligations.HeaderFieldsOfEveryByte : Prop :=
  ∀ n, n < 128 →
    isRun (BitVec.ofNat 8 n) = false ∧ isRun (BitVec.ofNat 8 (128 + n)) = true ∧
    stored (BitVec.ofNat 8 n) = n ∧ stored (BitVec.ofNat 8 (128 + n)) = n ∧
    count (BitVec.ofNat 8 n) = (if n = 0 then 128 else n) ∧
    count (BitVec.ofNat 8 (128 + n)) = (if n = 0 then 128 else n) ∧
    packetSize (BitVec.ofNat 8 n) = 1 + (if n = 0 then 128 else n) ∧
    packetSize (BitVec.ofNat 8 (128 + n)) = 2

/-- R50, R51: the headers of the lengths 2 to 128 and 1 to 128, and no header of any other length. -/
def Obligations.HeaderGeneratorHasItsDomain : Prop :=
  ∀ (n : Nat) (h : Byte),
    (runHeader n = some h ↔ 2 ≤ n ∧ n ≤ 128 ∧ h.toNat = 128 + n % 128) ∧
    (literalHeader n = some h ↔ 1 ≤ n ∧ n ≤ 128 ∧ h.toNat = n % 128)

/-- R55: the generator and the parser are inverse, both ways. -/
def Obligations.HeaderGeneratorAndParserAreInverse : Prop :=
  (∀ n, 2 ≤ n → n ≤ 128 → ∃ h, runHeader n = some h ∧ isRun h = true ∧ count h = n) ∧
  (∀ n, 1 ≤ n → n ≤ 128 → ∃ h, literalHeader n = some h ∧ isRun h = false ∧ count h = n) ∧
  (∀ h : Byte, isRun h = true → 2 ≤ count h → runHeader (count h) = some h) ∧
  (∀ h : Byte, isRun h = false → literalHeader (count h) = some h)

/-- Every well-formed instruction, with every operand, is what its encoding decodes to, with nothing left over. -/
def Obligations.DecodeOfEncodeIsTheInstruction : Prop :=
  ∀ i : Instr, i.wellFormed = true → decode (encode i) = .ok (i, [])

/-- What the decoder reads from the front of a stream is a well-formed packet whose bytes stood there: no two packets
share their bytes, and none loses a bit. -/
def Obligations.ReadPacketStoodInTheStream : Prop :=
  ∀ (bytes rest : List Byte) (i : Instr), decodePacket bytes = .ok (i, rest) →
    isPacket i = true ∧ i.wellFormed = true ∧ packetBytes i ++ rest = bytes

/-- R42, R48: a concatenation of well-formed packets parses, from its start, to exactly those packets. -/
def Obligations.StreamOfPacketsParsesBack : Prop :=
  ∀ packets : List Instr, (∀ p ∈ packets, isPacket p = true ∧ p.wellFormed = true) →
    decodeStream packets.length (encodeStream packets) = some packets

/-- R47: no header value is illegal: with enough bytes after it every header is a packet; with too few the reason is
the missing payload, by name. -/
def Obligations.OnlyTruncationIsRejected : Prop :=
  decodePacket [] = .error .endOfStream ∧
  ∀ (h : Byte) (rest : List Byte),
    (packetSize h ≤ rest.length + 1 → ∃ i rest', decodePacket (h :: rest) = .ok (i, rest')) ∧
    (rest.length + 1 < packetSize h →
      decodePacket (h :: rest) =
        .error (if isRun h then .missingValue else .missingPayload (count h) rest.length))

/-- The values of `OP` and the functions they select (R12), both ways. -/
def Obligations.CommandCodesSelectTheFourFunctions : Prop :=
  decodeCommand 0 = .enc ∧ decodeCommand 1 = .dec ∧ decodeCommand 2 = .pes ∧ decodeCommand 3 = .pds ∧
  ∀ code : CommandCode, encode (decodeCommand code) = .opRegister code

/-- Words written out from the tables of R43, R44 and R12: `83 07` is a run of 3, `80 AA` a run of 128, `81 55` a run of 1,
`03 01 02 03` a literal of 3, and `OP = 3` is `PDS`. -/
def Obligations.WrittenOutWordsDecode : Prop :=
  decode (.stream [0b10000011, 0b00000111]) = .ok (.run 3 7, []) ∧
  decode (.stream [0b10000000, 0b10101010]) = .ok (.run 128 0xAA, []) ∧
  decode (.stream [0b10000001, 0b01010101]) = .ok (.run 1 0x55, []) ∧
  decode (.stream [0b00000011, 0b00000001, 0b00000010, 0b00000011]) = .ok (.lit [1, 2, 3], []) ∧
  decode (.opRegister 0b11) = .ok (.pds, [])

/-! ## The packet scanner and the grouper -/

/-- R66: the run scan finds the greatest run, not above 128, of bytes equal to the one at `i`; and it reads only bytes
below the length: any byte source `src` that agrees with `x` there gives the same. -/
def Obligations.RunScanFindsTheGreatestRun : Prop :=
  ∀ (x : List Byte) (src : Nat → Option Byte) (i : Nat), (∀ j, j < x.length → src j = x[j]?) → i < x.length →
    ∃ r, runScan src x.length i = some r ∧ 1 ≤ r ∧ r ≤ min 128 (x.length - i) ∧
      (∀ k, k < r → x[i + k]? = x[i]?) ∧
      (∀ r', r' ≤ 128 → i + r' ≤ x.length → (∀ k, k < r' → x[i + k]? = x[i]?) → r' ≤ r)

/-- R67: the literal scan takes bytes that differ from their successors (or have none), and stops at the cap, at the end
of the input, or, without consuming it, at the first byte equal to its successor; it reads only bytes below the
length. -/
def Obligations.LiteralScanStopsBeforeARun : Prop :=
  ∀ (x : List Byte) (src : Nat → Option Byte) (i : Nat), (∀ j, j < x.length → src j = x[j]?) → i < x.length →
    runScan src x.length i = some 1 →
    ∃ l, litScan src x.length i = some l ∧ 1 ≤ l ∧ l ≤ min 128 (x.length - i) ∧
      (∀ k, k < l → i + k + 1 < x.length → x[i + k]? ≠ x[i + k + 1]?) ∧
      (l = 128 ∨ i + l = x.length ∨ (i + l + 1 < x.length ∧ x[i + l]? = x[i + l + 1]?))

/-- R68: the group at `i` is the run found there when it has at least two bytes, that is, when two bytes are equal there,
and otherwise the literal found there; it has 1 to 128 bytes of the input; and it depends on the input from `i` on
only. -/
def Obligations.GroupIsARunElseALiteral : Prop :=
  ∀ (x : List Byte) (src : Nat → Option Byte) (i : Nat), (∀ j, j < x.length → src j = x[j]?) → i < x.length →
    ∃ kind len, group src x.length i = some (kind, len) ∧ 1 ≤ len ∧ len ≤ min 128 (x.length - i) ∧
      (kind = .run ↔ i + 1 < x.length ∧ x[i]? = x[i + 1]?) ∧
      (kind = .run → 2 ≤ len ∧ runScan src x.length i = some len) ∧
      (kind = .lit → litScan src x.length i = some len) ∧
      group (bytesOf (x.drop i)) (x.length - i) 0 = some (kind, len)

/-! ## The four functions -/

/-- R87: the round-trip law. -/
def Obligations.RoundTripLaw : Prop := ∀ x : List Byte, dec (enc x) = some x

/-- R88: the encoder's output is as long as predicted; and at the end of an `ENC` fill pass `wp = acc`. -/
def Obligations.EncodedLengthIsPredicted : Prop :=
  (∀ x : List Byte, (enc x).length = pes x) ∧
  ∀ s : State, s.Inv → s.phase = .fill → s.op = 0 → s.ip = s.inLen → s.wp = s.acc

/-- R89: the decoder's output is as long as predicted, for every valid stream; and at the end of a `DEC` fill pass
`wp = acc`. -/
def Obligations.DecodedLengthIsPredicted : Prop :=
  (∀ y : List Byte, ValidStream y → ∃ z, dec y = some z ∧ z.length = pds y) ∧
  ∀ s : State, s.Inv → s.phase = .fill → s.op = 1 → s.ip = s.inLen → s.wp = s.acc

/-- R95, R96: decoding fails exactly on the streams whose packet walk ends past their length; and the walk never ends
before it. -/
def Obligations.DecodingFailsExactlyOnInvalidStreams : Prop :=
  ∀ y : List Byte, (dec y = none ↔ y.length < walkEnd y y.length 0) ∧ y.length ≤ walkEnd y y.length 0

/-- R97: every encoder output is valid, and its predicted decoded size is the raw length. -/
def Obligations.EncoderOutputIsValid : Prop := ∀ x : List Byte, ValidStream (enc x) ∧ pds (enc x) = x.length

/-- R99: the bounds on sizes, and an input that reaches the upper bound. -/
def Obligations.SizesAreBounded : Prop :=
  (∀ x : List Byte, pes x ≤ x.length + (x.length + 2) / 3 ∧ 2 * ((x.length + 127) / 128) ≤ pes x) ∧
  (∀ a b : Byte, a ≠ b → pes [a, b, b, a, b, b, a] = 10) ∧
  (∀ y : List Byte, pds y ≤ 128 * ((y.length + 1) / 2) ∧ (y.length + 128) / 129 ≤ pds y) ∧
  (∀ y z : List Byte, ValidStream y → dec y = some z → z.length = pds y ∧ z.length ≤ 64 * y.length)

/-- R90: a maximal stretch of `m` equal bytes at a packet boundary encodes as `floor(m / 128)` runs of 128, then nothing, a
run of what is left, or a literal that starts with the one byte left; and 200 bytes as `128 + 72`. -/
def Obligations.RunsAreCappedAt128 : Prop :=
  (∀ (v : Byte) (m : Nat) (rest : List Byte), rest.head? ≠ some v →
    enc (List.replicate m v ++ rest) =
      (List.replicate (m / 128) [0x80#8, v]).flatten ++
        (if m % 128 = 0 then enc rest
         else if 2 ≤ m % 128 then [0x80#8 ||| BitVec.ofNat 8 (m % 128), v] ++ enc rest
         else enc (v :: rest))) ∧
  (∀ (v : Byte) (rest : List Byte), rest.head? ≠ some v →
    ∃ l tail, 1 ≤ l ∧ l ≤ 128 ∧ enc (v :: rest) = BitVec.ofNat 8 (l % 128) :: v :: tail) ∧
  enc (List.replicate 200 0xAA#8) = [0x80, 0xAA, 0xC8, 0xAA]

/-- R91: at the length 128 the field holds 0, for runs and for literals, both ways. -/
def Obligations.Length128IsStoredAsZero : Prop :=
  (∀ v : Byte, enc (List.replicate 128 v) = [0x80, v] ∧ dec [0x80, v] = some (List.replicate 128 v)) ∧
  (∀ b : List Byte, b.length = 128 → dec (0x00 :: b) = some b) ∧
  (∀ b : List Byte, b.length = 128 → List.IsChain (· ≠ ·) b → enc b = 0x00 :: b)

/-- R92, R93: the document's examples, the mixed one with its run headers corrected. -/
def Obligations.ExamplesOfTheDocument : Prop :=
  enc [1, 2, 3, 4, 5] = [0x05, 1, 2, 3, 4, 5] ∧ dec [0x05, 1, 2, 3, 4, 5] = some [1, 2, 3, 4, 5] ∧
  enc [7, 7, 7, 9, 9, 1, 2, 3] = [0x83, 7, 0x82, 9, 0x03, 1, 2, 3] ∧
  dec [0x83, 7, 0x82, 9, 0x03, 1, 2, 3] = some [7, 7, 7, 9, 9, 1, 2, 3] ∧
  dec [0x82, 7, 0x81, 9, 0x03, 1, 2, 3] = some [7, 7, 9, 1, 2, 3]

/-- Valid streams concatenate: "it decodes to the concatenation of the two outputs, since packets carry no cross-packet
state"; canonical ones need not give a canonical one (R125, its two sentences on concatenation). -/
def Obligations.ValidStreamsConcatenate : Prop :=
  (∀ y y' z z' : List Byte, dec y = some z → dec y' = some z' →
    dec (y ++ y') = some (z ++ z') ∧ ValidStream (y ++ y')) ∧
  ∃ y y' : List Byte, CanonicalStream y ∧ CanonicalStream y' ∧ ¬ CanonicalStream (y ++ y')

/-- R98: every valid stream is a stream of packets; it is canonical exactly when its packets meet the five conditions; the
encoder emits canonical streams only; and `dec` is not injective. -/
def Obligations.CanonicalStreamsAreTheFiveConditions : Prop :=
  (∀ y : List Byte, ValidStream y →
    ∃ packets, (∀ p ∈ packets, isPacket p = true ∧ p.wellFormed = true) ∧ encodeStream packets = y) ∧
  (∀ packets : List Instr, (∀ p ∈ packets, isPacket p = true ∧ p.wellFormed = true) →
    (CanonicalStream (encodeStream packets) ↔ CanonicalPackets packets)) ∧
  (∀ x : List Byte, ValidStream (enc x) ∧ CanonicalStream (enc x)) ∧
  (dec [1, 1, 1, 2] = some [1, 2] ∧ dec [2, 1, 2] = some [1, 2] ∧ enc [1, 1] = [0x82, 1] ∧
    dec [0x81, 1, 0x81, 1] = some [1, 1])

/-! ## What a step runs -/

/-- A step is the host's next move, or, when the host makes none (its list is empty, or its next entry is `wait`), the
engine's step; the engine's step runs the command in `OP` while `STATUS` is `BUSY` (R81) and changes nothing otherwise
(R117), but that a `wait` is taken off the list. The list of host moves is the model's (log entry 7). -/
def Obligations.StepRunsTheSelectedCommand : Prop :=
  ∀ s : State,
    (s.host = [] → s.status = .busy → step s = exec (decodeCommand s.op) s) ∧
    (s.host = [] → s.status ≠ .busy → step s = .next s) ∧
    (∀ rest, s.host = .wait :: rest → s.status = .busy →
      step s = exec (decodeCommand s.op) { s with host := rest }) ∧
    (∀ rest, s.host = .wait :: rest → s.status ≠ .busy → step s = .next { s with host := rest }) ∧
    (∀ rest, s.host = .start :: rest → s.status ≠ .busy →
      step s = exec (decodeCommand s.op) { s with host := rest })

/-- R74: in the fill pass of `DEC` with the bytes of a whole packet at the cursor, the step is the meaning of that packet:
the step runs the instruction the decoder reads there. -/
def Obligations.DecoderStepRunsThePacketAtTheCursor : Prop :=
  ∀ (s : State) (bytes : List Byte) (i : Instr), s.host = [] → s.status = .busy → s.phase = .fill → s.op = 1 →
    (∀ k, k < bytes.length → s.inByte (s.ip + k) = bytes[k]?) → decodePacket bytes = .ok (i, []) →
    step s = exec i s

/-- R80: a `START` while no operation runs begins the operation; a `START` while one runs has no effect. (That the
strobe is an entry of the list of host moves is the model's, log entry 7.) -/
def Obligations.StartBeginsAnOperation : Prop :=
  ∀ (s : State) (rest : List HostMove), s.host = .start :: rest →
    (s.status ≠ .busy →
      step s = .next { s with
        host := rest, status := .busy, result := 0, phase := .size, ip := 0, acc := 0, wp := 0 }) ∧
    (s.status = .busy → step s = .next { s with host := rest })

/-- Each command, issued while no operation runs, is accepted with its code in `OP` (R80, R119 steps 4 and 6); issued
while another command's operation runs, it has no effect. (That a meaning writes `OP` as well is the model's, log
entry 8.) -/
def Obligations.IssuedCommandsAreAcceptedWhenIdle : Prop :=
  ∀ s : State, ∀ i ∈ [Instr.enc, .dec, .pes, .pds], ∀ code, encode i = .opRegister code →
    (s.status ≠ .busy →
      exec i s = .next { s with
        op := code, status := .busy, result := 0, phase := .size, ip := 0, acc := 0, wp := 0 }) ∧
    (s.status = .busy → s.op ≠ code → exec i s = .next s)

/-! ## The size pass -/

/-- R59: the encoded-size step of `ENC` and of `PES`, with everything else unchanged; and at the end of the pass `acc` is
the predicted encoded size. -/
def Obligations.EncodedSizeStepChargesOnePacket : Prop :=
  (∀ (s : State) (x : List Byte) (kind : Kind) (len : Nat),
    s.status = .busy → s.phase = .size → s.ip < s.inLen → s.input = some x →
    group (bytesOf x) x.length s.ip = some (kind, len) →
    ∀ t, t = { s with acc := s.acc + (if kind = .run then 2 else 1 + len), ip := s.ip + len } →
      (s.op = 0 → exec .enc s = .next t) ∧ (s.op = 2 → exec .pes s = .next t) ∧ t.ip ≤ t.inLen) ∧
  ∀ (s : State) (x : List Byte), s.Inv → s.phase = .size → s.ip = s.inLen → s.input = some x →
    s.op = 0 ∨ s.op = 2 → s.acc = pes x

/-- R62: the decoded-size step of `DEC` and of `PDS`, with everything else unchanged; the header is the one byte that must
have been written; and at the end of the pass `acc` is the predicted decoded size. -/
def Obligations.DecodedSizeStepChargesOnePacket : Prop :=
  (∀ (s : State) (h : Byte),
    s.status = .busy → s.phase = .size → s.ip < s.inLen → s.inMem.read s.ip = some h →
    ∀ t, t = { s with acc := s.acc + count h, ip := min (s.ip + packetSize h) s.inLen } →
      (s.op = 1 → exec .dec s = .next t) ∧ (s.op = 3 → exec .pds s = .next t)) ∧
  ∀ (s : State) (y : List Byte), s.Inv → s.phase = .size → s.ip = s.inLen → s.input = some y →
    s.op = 1 ∨ s.op = 3 → s.acc = pds y

/-- R82: the end of the size pass, where `acc` is the predicted size: `PES` and `PDS` answer with it; for `ENC` and `DEC` the
allocation fails exactly when it exceeds the capacity (R105), and otherwise the fill pass begins; nothing else
changes. -/
def Obligations.EndOfTheSizePass : Prop :=
  ∀ s : State, s.status = .busy → s.phase = .size → s.ip = s.inLen → ∀ i, encode i = .opRegister s.op →
    (s.Inv → ∀ x, s.input = some x →
      ((i = .enc ∨ i = .pes → s.acc = pes x) ∧ (i = .dec ∨ i = .pds → s.acc = pds x))) ∧
    (i = .pes ∨ i = .pds → exec i s = .next { s with result := s.acc, status := .done, phase := .idle }) ∧
    (i = .enc ∨ i = .dec →
      (s.acc ≤ s.outCap → exec i s = .next { s with phase := .fill, ip := 0, wp := 0 }) ∧
      (s.outCap < s.acc → exec i s = .next (s.raise .allocationFailure)))

/-! ## The fill pass -/

/-- R71 with R69 and R70: the encoder fill step writes the packet of the group at the cursor, at `wp`, and nothing else
but `wp` and `ip` changes. -/
def Obligations.EncoderFillStepEmitsOnePacket : Prop :=
  ∀ (s : State) (x : List Byte) (kind : Kind) (len : Nat),
    s.outMem.wf → s.status = .busy → s.phase = .fill → s.op = 0 → s.ip < s.inLen → s.input = some x →
    group (bytesOf x) x.length s.ip = some (kind, len) →
    s.wp + (if kind = .run then 2 else 1 + len) ≤ s.outCap →
    ∃ t, exec .enc s = .next t ∧
      (kind = .run → t.wp = s.wp + 2 ∧ t.outMem.read s.wp = some (0x80#8 ||| (BitVec.ofNat 8 len &&& 0x7f#8)) ∧
        t.outMem.read (s.wp + 1) = x[s.ip]?) ∧
      (kind = .lit → t.wp = s.wp + 1 + len ∧ t.outMem.read s.wp = some (BitVec.ofNat 8 len &&& 0x7f#8) ∧
        ∀ k, k < len → t.outMem.read (s.wp + 1 + k) = x[s.ip + k]?) ∧
      (∀ a, a < s.wp ∨ t.wp ≤ a → t.outMem.read a = s.outMem.read a) ∧
      t = { s with outMem := t.outMem, wp := t.wp, ip := s.ip + len }

/-- R75: a run packet writes its count of copies of its value byte at `wp`, and nothing else but `wp` and `ip` changes; a
run header that is the last byte of the stream raises `MalformedStream`; and this is what `DEC` does with a run
header `h` at the cursor and `v` after it. -/
def Obligations.RunPacketExpands : Prop :=
  ∀ (c : Nat) (v : Byte) (s : State),
    (s.outMem.wf → s.ip + 1 < s.inLen → s.wp + c ≤ s.outCap →
      ∃ t, exec (.run c v) s = .next t ∧
        (∀ k, k < c → t.outMem.read (s.wp + k) = some v) ∧
        (∀ a, a < s.wp ∨ s.wp + c ≤ a → t.outMem.read a = s.outMem.read a) ∧
        t = { s with outMem := t.outMem, wp := s.wp + c, ip := s.ip + 2 }) ∧
    (s.inLen ≤ s.ip + 1 → exec (.run c v) s = .next (s.raise .malformedStream)) ∧
    (s.status = .busy → s.phase = .fill → s.op = 1 → ∀ h, s.inByte s.ip = some h → isRun h = true → count h = c →
      s.inByte (s.ip + 1) = some v → exec .dec s = exec (.run c v) s)

/-- R76: a literal packet copies its payload verbatim to `wp`, and nothing else but `wp` and `ip` changes; a payload
that runs past the end of the stream raises `MalformedStream`; and this is what `DEC` does with a literal header `h` at
the cursor and the payload after it. -/
def Obligations.LiteralPacketCopies : Prop :=
  ∀ (payload : List Byte) (s : State),
    (s.outMem.wf → s.ip + 1 + payload.length ≤ s.inLen → s.wp + payload.length ≤ s.outCap →
      ∃ t, exec (.lit payload) s = .next t ∧
        (∀ k, k < payload.length → t.outMem.read (s.wp + k) = payload[k]?) ∧
        (∀ a, a < s.wp ∨ s.wp + payload.length ≤ a → t.outMem.read a = s.outMem.read a) ∧
        t = { s with outMem := t.outMem, wp := s.wp + payload.length, ip := s.ip + 1 + payload.length }) ∧
    (s.inLen < s.ip + 1 + payload.length → exec (.lit payload) s = .next (s.raise .malformedStream)) ∧
    (s.status = .busy → s.phase = .fill → s.op = 1 → ∀ h, s.inByte s.ip = some h → isRun h = false →
      count h = payload.length → (∀ k, k < payload.length → s.inByte (s.ip + 1 + k) = payload[k]?) →
      exec .dec s = exec (.lit payload) s)

/-- R74, R77: in the fill pass of `DEC` every output byte is the run's value or the next payload byte of the input, by the
header at the cursor; the output grows by the header's count; nothing else changes. -/
def Obligations.DecoderFillStepMultiplexes : Prop :=
  ∀ (s : State) (x : List Byte) (h : Byte),
    s.outMem.wf → s.status = .busy → s.phase = .fill → s.op = 1 → s.input = some x → x[s.ip]? = some h →
    s.ip + packetSize h ≤ s.inLen → s.wp + count h ≤ s.outCap →
    ∃ t, exec .dec s = .next t ∧
      (∀ k, k < count h →
        t.outMem.read (s.wp + k) = if isRun h then x[s.ip + 1]? else x[s.ip + 1 + k]?) ∧
      (∀ a, a < s.wp ∨ s.wp + count h ≤ a → t.outMem.read a = s.outMem.read a) ∧
      t = { s with outMem := t.outMem, wp := s.wp + count h, ip := s.ip + packetSize h }

/-- R104: in the fill pass of `DEC` the header alone decides whether `MalformedStream` is raised: exactly when the packet's
payload runs past the end of the stream, whether or not a byte of that payload was written. -/
def Obligations.MalformedStreamExactlyWhenCutShort : Prop :=
  ∀ (s : State) (h : Byte), s.status = .busy → s.phase = .fill → s.op = 1 → s.ip < s.inLen →
    s.inMem.read s.ip = some h →
    (exec .dec s = .next (s.raise .malformedStream) ↔
      (if isRun h then s.inLen ≤ s.ip + 1 else s.inLen < s.ip + 1 + count h))

/-- R83: at the end of the fill pass the operation is done and `RESULT` is the number of bytes written, which is the
predicted size; nothing else changes. -/
def Obligations.FillPassEndsWithTheLength : Prop :=
  ∀ s : State, s.status = .busy → s.phase = .fill → s.ip = s.inLen → ∀ i ∈ [Instr.enc, .dec], encode i = .opRegister s.op →
    exec i s = .next { s with result := s.wp, status := .done, phase := .idle } ∧ (s.Inv → s.wp = s.acc)

/-! ## Exceptions -/

/-- R109, R103: what taking an exception leaves: the kind's status code, `RESULT = 0`, `P_IDLE`, the host's side
unchanged, and no byte of `OUT` with a value. (That an unspecified byte of `OUT` reads as no value is the model's, log
entry 5; nothing is said of `ip`, `acc`, `wp`.) -/
def Obligations.ExceptionEntryEndsTheOperation : Prop :=
  ∀ (s : State) (e : CodecError),
    (s.raise e).status.code = (match e with | .malformedStream => 3 | .allocationFailure => 4) ∧
    (s.raise e).errPort = some (match e with | .malformedStream => 1 | .allocationFailure => 2) ∧
    (s.raise e).result = 0 ∧ (s.raise e).phase = .idle ∧ s.SameInput (s.raise e) ∧ (s.raise e).op = s.op ∧
    ∀ a, (s.raise e).hostReadOut a = none

/-- R103 to R106: an instruction of a running operation raises `MalformedStream` only as a packet or as `DEC` in its fill pass,
and `AllocationFailure` only as `ENC` or `DEC` at the end of the size pass with a predicted size above the capacity;
`PES` and `PDS` raise nothing. -/
def Obligations.ExceptionsAreRaisedOnlyWhereListed : Prop :=
  ∀ (i : Instr) (s t : State), s.status = .busy → exec i s = .next t →
    (t.status = .errMalformed → isPacket i = true ∨ (i = .dec ∧ s.op = 1 ∧ s.phase = .fill ∧ s.ip < s.inLen)) ∧
    (t.status = .errAlloc → (i = .enc ∨ i = .dec) ∧ s.phase = .size ∧ s.inLen ≤ s.ip ∧ s.outCap < s.acc)

/-- Where the model stops, by name: a byte of the input that is needed and was never written (R28, "a fault of the
launch"; log entry 4), a write at or above `OUT_CAP` (outside the domain of `MemWrite`, R30; log entry 15), and a
combination for which R81 lists no step (log entry 14). -/
def Obligations.StopsAreByName : Prop :=
  ∀ s : State, s.status = .busy →
    (s.ip < s.inLen → s.inMem.read s.ip = none →
      (s.phase = .size → (s.op = 1 → exec .dec s = .fault .inputNotWritten) ∧
        (s.op = 3 → exec .pds s = .fault .inputNotWritten)) ∧
      (s.phase = .fill → s.op = 1 → exec .dec s = .fault .inputNotWritten) ∧
      (s.phase = .fill → s.op = 0 → exec .enc s = .fault .inputNotWritten) ∧
      (s.phase = .size → s.ip + 1 < s.inLen → (s.op = 0 → exec .enc s = .fault .inputNotWritten) ∧
        (s.op = 2 → exec .pes s = .fault .inputNotWritten))) ∧
    (∀ c v, s.ip + 1 < s.inLen → s.outCap < s.wp + c → exec (.run c v) s = .refused .writeOutsideCapacity) ∧
    (∀ payload, s.ip + 1 + payload.length ≤ s.inLen → s.outCap < s.wp + payload.length →
      exec (.lit payload) s = .refused .writeOutsideCapacity) ∧
    (∀ i ∈ [Instr.enc, .dec, .pes, .pds], encode i = .opRegister s.op →
      s.phase = .idle ∨ (s.phase = .fill ∧ (i = .pes ∨ i = .pds)) → exec i s = .fault .noStepEnabled)

/-- R110, R117: with no move of the host an engine that is not busy keeps all its state: an error status stays until the
next `START`. -/
def Obligations.IdleEngineKeepsAllState : Prop :=
  ∀ (s : State) (k : Nat), s.status ≠ .busy → s.host = [] → runFor k s = .next s

/-! ## Reset and the host -/

/-- R28: the reset values the spec gives, that no byte of a memory has a value, and that nothing runs. -/
def Obligations.ResetLeavesTheEngineIdle : Prop :=
  State.reset.status.code = 0 ∧ State.reset.result = 0 ∧ State.reset.phase.code = 0 ∧ State.reset.ip = 0 ∧
  State.reset.acc = 0 ∧ State.reset.wp = 0 ∧
  ∀ a, State.reset.hostReadIn a = none ∧ State.reset.hostReadOut a = none

/-- R118: reset, at any time and in any state, leaves the reset values and abandons the operation. (That it is an entry
of the list of host moves is the model's, log entry 7.) -/
def Obligations.ResetAbandonsTheOperation : Prop :=
  ∀ (s : State) (rest : List HostMove), s.host = .reset :: rest →
    ∃ t, step s = .next t ∧ t.status = .idle ∧ t.result = 0 ∧ t.phase = .idle ∧ t.ip = 0 ∧ t.acc = 0 ∧ t.wp = 0 ∧
      t.host = rest ∧ ∀ a, t.hostReadIn a = none ∧ t.hostReadOut a = none

/-- R27, the host's writes: while no operation runs each write changes its own target and nothing else. -/
def Obligations.HostWritesReachTheirTargets : Prop :=
  ∀ (s : State) (rest : List HostMove), s.status ≠ .busy → s.inMem.wf → s.outMem.wf →
    (∀ a v, s.host = .writeIn a v :: rest → ∃ t, step s = .next t ∧ t = { s with host := rest, inMem := t.inMem } ∧
      t.hostReadIn a = some v ∧ ∀ b, b ≠ a → t.hostReadIn b = s.hostReadIn b) ∧
    (∀ a v, s.host = .writeOut a v :: rest → ∃ t, step s = .next t ∧ t = { s with host := rest, outMem := t.outMem } ∧
      t.hostReadOut a = some v ∧ ∀ b, b ≠ a → t.hostReadOut b = s.hostReadOut b) ∧
    (∀ code, s.host = .writeOp code :: rest → step s = .next { s with host := rest, op := code }) ∧
    (∀ n, s.host = .writeInLen n :: rest → step s = .next { s with host := rest, inLen := n }) ∧
    (∀ n, s.host = .writeOutCap n :: rest → step s = .next { s with host := rest, outCap := n })

/-- R27, R120: an access that is forbidden while an operation runs has no meaning: the model refuses it by name (the
refusal is the model's form of "the model has no move for it", log entry 9). -/
def Obligations.ForbiddenHostAccessIsRefused : Prop :=
  ∀ (s : State) (m : HostMove) (rest : List HostMove), s.host = m :: rest → s.status = .busy →
    m ≠ .wait → m ≠ .start → m ≠ .reset → step s = .refused .hostAccessWhileBusy

/-- R15, R16, R86: what the host sees at any time: the status code, the levels of `busy`, `done` and `err`, and a `RESULT`
that is not valid while `BUSY`. That a read of `RESULT`, `IN` or `OUT` while `BUSY` answers no value is the model's form of
"its value is not valid" (R16; log entry 23, DEDUCED) and of "must not access" (R27; log entry 9, DESIGN CHOICE). -/
def Obligations.HostSeesTheStatus : Prop :=
  ∀ s : State,
    (s.hostReadStatus = 1 ↔ s.status = .busy) ∧ s.hostReadStatus.toNat ≤ 4 ∧
    (s.busyPort = true ↔ s.status = .busy) ∧
    (s.donePort = true ↔ s.status ≠ .busy ∧ s.status ≠ .idle) ∧
    (s.errPort = none ↔ s.donePort = false) ∧
    (s.errPort = some 0 ↔ s.status = .done) ∧ (s.errPort = some 1 ↔ s.status = .errMalformed) ∧
    (s.errPort = some 2 ↔ s.status = .errAlloc) ∧
    (s.hostReadResult = none ↔ s.status = .busy) ∧
    (s.status = .busy → ∀ a, s.hostReadOut a = none ∧ s.hostReadIn a = none)

/-! ## Promises of the whole machine -/

/-- The invariant holds at reset. -/
def Obligations.InvariantHoldsAtReset : Prop := State.reset.Inv

/-- Every step keeps the invariant, from every state that has it. -/
def Obligations.EveryStepKeepsTheInvariant : Prop := ∀ s t : State, s.Inv → step s = .next t → t.Inv

/-- R100: no register wraps: with the parameters `LEN_W` and `SIZE_W = LEN_W + 7` every step leaves every register with a
number its width holds, and every byte of `OUT` inside the `OUT` memory. The model's, not the spec's: R28 leaves
`IN_LEN` and `OUT_CAP` unspecified after reset (an unspecified `OUT_CAP` may exceed `OUT_MEM_BYTES`), and that the reset
state fits, and the state after the move `reset`, holds because the model resets both to 0 (log entry 3, DESIGN
CHOICE). -/
def Obligations.NoRegisterWraps : Prop :=
  (∀ p : Config.Params, p.Legal → State.reset.Fits p) ∧
  ∀ (p : Config.Params) (s t : State), s.Inv → s.Fits p → step s = .next t → t.Fits p

/-- R27, R84, R85: the engine never writes `IN`, `IN_LEN`, `OUT_CAP`, never touches the host's moves, and changes `OP` only
as the issue of a command while no operation runs. -/
def Obligations.EngineLeavesTheHostsSideAlone : Prop :=
  ∀ (i : Instr) (s t : State), exec i s = .next t →
    s.SameInput t ∧ t.host = s.host ∧ (s.status = .busy ∨ isPacket i = true → t.op = s.op)

/-- R11: `PES` and `PDS` never write `OUT`, in any step and from any state. -/
def Obligations.PredictorsNeverWriteOut : Prop :=
  ∀ (s t : State), (exec .pes s = .next t ∨ exec .pds s = .next t) → t.outMem = s.outMem ∧ t.wp ≤ s.wp

/-- R30, R101: a step of an operation that goes on writes `OUT` only at `wp` and above, up to the new `wp`, which is
still within the capacity: in order, each index once, and in bounds. -/
def Obligations.WritesAreInOrderAndInBounds : Prop :=
  ∀ (s t : State), s.Inv → s.host = [] → s.status = .busy → s.phase = .fill → step s = .next t → t.status ≠ .errMalformed →
    s.wp ≤ t.wp ∧ t.wp ≤ t.outCap ∧ ∀ a, a < s.wp ∨ t.wp ≤ a → t.outMem.read a = s.outMem.read a

/-- R10, R122: bytes of `IN` at `IN_LEN` and above have no influence: with any other bytes there, every instruction has the
same outcome. -/
def Obligations.BytesPastTheInputDoNotMatter : Prop :=
  ∀ (i : Instr) (s : State) (m : Memory), (∀ a, a < s.inLen → m.read a = s.inMem.read a) →
    exec i { s with inMem := m } = mapNext (fun t => { t with inMem := m }) (exec i s)

/-- R30, R77: the engine never reads `OUT`: with any other content of `OUT` every instruction has the same outcome but for
`OUT` itself; the bytes of `OUT` from `wp` up to the new `wp` come out the same, so none is a copy of a byte that stood in
`OUT`; and every other byte comes out the same too, or is left as it was on both sides. -/
def Obligations.OutIsNeverRead : Prop :=
  ∀ (i : Instr) (s : State) (m : Memory),
    mapNext (fun t => { t with outMem := [] }) (exec i { s with outMem := m }) =
      mapNext (fun t => { t with outMem := [] }) (exec i s) ∧
    ∀ t t' : State, exec i s = .next t → exec i { s with outMem := m } = .next t' →
      ∀ a, (s.wp ≤ a → a < t.wp → t'.outMem.read a = t.outMem.read a) ∧
        (t'.outMem.read a = t.outMem.read a ∨
          (t.outMem.read a = s.outMem.read a ∧ t'.outMem.read a = m.read a))

/-- R102: every packet step moves the cursor forward and not past the end of the input (a step that raises an exception
ends the operation instead). -/
def Obligations.PacketStepsMakeProgress : Prop :=
  ∀ (s t : State), s.host = [] → s.status = .busy → s.ip < s.inLen → step s = .next t →
    (t.status = .busy ∧ s.ip < t.ip ∧ t.ip ≤ t.inLen ∧ t.phase = s.phase) ∨ t.status = .errMalformed

/-- R102, R106: "there is no hang, no wait and no stuck state inside an operation": with the input written, an operation's
every step is safe, from every state that has the invariant. -/
def Obligations.OperationsAreNeverStuck : Prop :=
  ∀ s : State, s.Inv → s.host = [] → s.status = .busy → (∃ x, s.input = some x) → s.SafeStep

/-! ## The operations (R84) -/

/-- R60: the operation of `PES`. -/
def Obligations.PesOperation : Prop :=
  ∀ (s : State) (x : List Byte), s.status ≠ .busy → s.host = [] → s.input = some x →
    s.Operation .pes fun t =>
      t.status = .done ∧ t.result = pes x ∧ t.outMem = s.outMem ∧ s.SameInput t ∧ t.op = 2

/-- R64: the operation of `PDS`. -/
def Obligations.PdsOperation : Prop :=
  ∀ (s : State) (y : List Byte), s.status ≠ .busy → s.host = [] → s.input = some y →
    s.Operation .pds fun t =>
      t.status = .done ∧ t.result = pds y ∧ t.outMem = s.outMem ∧ s.SameInput t ∧ t.op = 3

/-- R73: the operation of `ENC`. -/
def Obligations.EncOperation : Prop :=
  ∀ (s : State) (x : List Byte), s.outMem.wf → s.status ≠ .busy → s.host = [] → s.input = some x →
    s.Operation .enc fun t =>
      s.SameInput t ∧ t.op = 0 ∧
      (pes x ≤ s.outCap → t.status = .done ∧ t.result = (enc x).length ∧ t.result = pes x ∧
        t.collect = some (enc x) ∧ ∀ a, t.result ≤ a → t.outMem.read a = s.outMem.read a) ∧
      (s.outCap < pes x → t.status = .errAlloc ∧ t.result = 0)

/-- R79: the operation of `DEC`. -/
def Obligations.DecOperation : Prop :=
  ∀ (s : State) (y : List Byte), s.outMem.wf → s.status ≠ .busy → s.host = [] → s.input = some y →
    s.Operation .dec fun t =>
      s.SameInput t ∧ t.op = 1 ∧
      (s.outCap < pds y → t.status = .errAlloc ∧ t.result = 0) ∧
      (pds y ≤ s.outCap → dec y = none → t.status = .errMalformed ∧ t.result = 0) ∧
      (∀ z, pds y ≤ s.outCap → dec y = some z → t.status = .done ∧ t.result = z.length ∧ t.result = pds y ∧
        t.collect = some z ∧ ∀ a, t.result ≤ a → t.outMem.read a = s.outMem.read a)

/-- R94: the empty input: the four functions on it, and the four operations on it, whatever the capacity. -/
def Obligations.EmptyInputGivesEmptyOutput : Prop :=
  enc [] = [] ∧ dec [] = some [] ∧ pes [] = 0 ∧ pds [] = 0 ∧
  ∀ s : State, s.status ≠ .busy → s.host = [] → s.inLen = 0 → ∀ i ∈ [Instr.enc, .dec, .pes, .pds],
    s.Operation i fun t => t.status = .done ∧ t.result = 0 ∧ t.outMem = s.outMem
end

