-- ==== Sys2Proof/Laws/Memory.lean ====
section
/-! SUPPORT. The laws of a byte memory: a read after a write to the same index gives the value written, a write leaves
every other index alone, and every operation keeps the canonical form. -/

namespace Sys2Proof.Machine

@[simp] theorem read_nil (a : Nat) : Memory.read [] a = none := rfl

theorem read_none_of_lt {m : Memory} {a : Nat} (h : ∀ c ∈ m, a < c.1) : Memory.read m a = none := by
  cases m with
  | nil => rfl
  | cons c rest =>
    obtain ⟨b, v⟩ := c
    have hb := h (b, v) (by simp)
    have hne : a ≠ b := by simp at hb; omega
    have hlt : a < b := by simpa using hb
    simp [Memory.read, hne, hlt]

theorem mem_write {m : Memory} {a : Nat} {v : Byte} {c : Host.Cell} (h : c ∈ m.write a v) : c = (a, v) ∨ c ∈ m := by
  induction m with
  | nil => simpa [Memory.write] using h
  | cons d rest ih =>
    obtain ⟨b, w⟩ := d
    simp only [Memory.write] at h
    split at h
    · simpa using h
    · split at h
      · simp only [List.mem_cons] at h ⊢
        tauto
      · simp only [List.mem_cons] at h ⊢
        rcases h with h | h
        · exact .inr (.inl h)
        · rcases ih h with h | h
          · exact .inl h
          · exact .inr (.inr h)

/-- A write keeps the canonical form. -/
theorem wf_write {m : Memory} (h : m.wf) (a : Nat) (v : Byte) : (m.write a v).wf := by
  induction m with
  | nil => simp [Memory.write, Memory.wf]
  | cons d rest ih =>
    obtain ⟨b, w⟩ := d
    obtain ⟨hb, hrest⟩ := List.pairwise_cons.mp h
    simp only [Memory.write]
    split
    · rename_i hlt
      refine List.pairwise_cons.mpr ⟨?_, h⟩
      intro c hc
      rcases List.mem_cons.mp hc with rfl | hc
      · exact hlt
      · exact Nat.lt_trans hlt (hb c hc)
    · split
      · rename_i heq
        subst heq
        exact List.pairwise_cons.mpr ⟨hb, hrest⟩
      · refine List.pairwise_cons.mpr ⟨?_, ih hrest⟩
        intro c hc
        rcases mem_write hc with rfl | hc
        · simp only; omega
        · exact hb c hc

/-- A read after a write: the value written at its index, and what was there elsewhere; in any list of cells, since the
write and the read search it in one way. -/
theorem read_write (m : Memory) (a c : Nat) (v : Byte) :
    (m.write a v).read c = if c = a then some v else m.read c := by
  induction m with
  | nil => by_cases hc : c = a <;> simp [Memory.write, Memory.read, hc]
  | cons d rest ih =>
    obtain ⟨b, w⟩ := d
    simp only [Memory.write]
    split
    · by_cases hc : c = a
      · simp [Memory.read, hc]
      · by_cases hlt : c < a
        · have h1 : c ≠ b := by omega
          have h2 : c < b := by omega
          simp [Memory.read, hc, hlt, h1, h2]
        · simp [Memory.read, hc, hlt]
    · split
      · rename_i heq
        subst heq
        by_cases hc : c = a <;> simp [Memory.read, hc]
      · rename_i h1 h2
        by_cases hc : c = a
        · subst hc
          simp [Memory.read, ih, h1, h2]
        · simp [Memory.read, ih, hc]

/-- Writing bytes keeps the canonical form. -/
theorem wf_writeBytes {m : Memory} (h : m.wf) (a : Nat) (bs : List Byte) : (m.writeBytes a bs).wf := by
  induction bs generalizing m a with
  | nil => exact h
  | cons b bs ih => exact ih (wf_write h a b) (a + 1)

/-- A read after a write of bytes: the byte written inside their range, and what was there outside. -/
theorem read_writeBytes (m : Memory) (a c : Nat) (bs : List Byte) :
    (m.writeBytes a bs).read c = if a ≤ c ∧ c < a + bs.length then bs[c - a]? else m.read c := by
  induction bs generalizing m a with
  | nil =>
    have hn : ¬ (a ≤ c ∧ c < a + 0) := by omega
    simp only [Memory.writeBytes, List.length_nil, if_neg hn]
  | cons b bs ih =>
    simp only [Memory.writeBytes, ih, read_write, List.length_cons]
    by_cases h1 : c = a
    · subst h1
      have : ¬ (c + 1 ≤ c) := by omega
      simp [this]
    · by_cases h2 : a ≤ c ∧ c < a + (bs.length + 1)
      · have h3 : a + 1 ≤ c ∧ c < a + 1 + bs.length := by omega
        have h4 : c - a = (c - (a + 1)) + 1 := by omega
        simp only [if_pos h2, if_pos h3, h4, List.getElem?_cons_succ]
      · have h3 : ¬ (a + 1 ≤ c ∧ c < a + 1 + bs.length) := by omega
        simp only [if_neg h2, if_neg h3, if_neg h1]

theorem read_writeBytes_outside {m : Memory} {a c : Nat} {bs : List Byte}
    (hc : c < a ∨ a + bs.length ≤ c) : (m.writeBytes a bs).read c = m.read c := by
  rw [read_writeBytes, if_neg (by omega)]

theorem read_writeBytes_inside {m : Memory} {a k : Nat} {bs : List Byte} (hk : k < bs.length) :
    (m.writeBytes a bs).read (a + k) = bs[k]? := by
  rw [read_writeBytes, if_pos (by omega), Nat.add_sub_cancel_left]

/-- Bytes listed after a write are the ones written or were listed before. -/
theorem mem_writeBytes {m : Memory} {a : Nat} {bs : List Byte} {c : Host.Cell} (h : c ∈ m.writeBytes a bs) :
    (a ≤ c.1 ∧ c.1 < a + bs.length) ∨ c ∈ m := by
  induction bs generalizing m a with
  | nil => exact .inr h
  | cons b bs ih =>
    rcases ih h with h | h
    · left; simp only [List.length_cons]; omega
    · rcases mem_write h with rfl | h
      · left; simp
      · exact .inr h

/-- Reading `n` bytes of a source succeeds exactly when each has a value; the bytes read are those values. -/
theorem readBytes_eq_some {x : Nat → Option Byte} {a n : Nat} {bs : List Byte} :
    readBytes x a n = some bs ↔ bs.length = n ∧ ∀ k, k < n → x (a + k) = bs[k]? := by
  induction n generalizing a bs with
  | zero =>
    constructor
    · intro h
      simp only [readBytes, Option.some.injEq] at h
      subst h
      exact ⟨rfl, fun k hk => absurd hk (Nat.not_lt_zero k)⟩
    · rintro ⟨h, -⟩
      simp [readBytes, List.length_eq_zero_iff.mp h]
  | succ n ih =>
    simp only [readBytes]
    constructor
    · intro h
      split at h
      · rename_i b bs' hb hbs
        obtain rfl := Option.some.inj h
        obtain ⟨hlen, hall⟩ := ih.mp hbs
        refine ⟨by simp [hlen], ?_⟩
        intro k hk
        cases k with
        | zero => simpa using hb
        | succ k =>
          have := hall k (by omega)
          rw [List.getElem?_cons_succ, ← this]
          congr 1
          omega
      · cases h
    · rintro ⟨hlen, hall⟩
      cases bs with
      | nil => simp at hlen
      | cons b bs =>
        have hb : x a = some b := by simpa using hall 0 (by omega)
        have hbs : readBytes x (a + 1) n = some bs := by
          refine ih.mpr ⟨by simpa using hlen, ?_⟩
          intro k hk
          have := hall (k + 1) (by omega)
          rw [List.getElem?_cons_succ] at this
          rw [← this]
          congr 1
          omega
        simp [hb, hbs]

/-- Where every byte of a range has a value, reading the range succeeds. -/
theorem readBytes_isSome {x : Nat → Option Byte} {a n : Nat} (h : ∀ k, k < n → (x (a + k)).isSome) :
    (readBytes x a n).isSome := by
  induction n generalizing a with
  | zero => rfl
  | succ n ih =>
    have h0 := h 0 (by omega)
    have h1 := ih (a := a + 1) (fun k hk => by
      have := h (k + 1) (by omega)
      rwa [show a + 1 + k = a + (k + 1) by omega])
    obtain ⟨b, hb⟩ := Option.isSome_iff_exists.mp h0
    obtain ⟨bs, hbs⟩ := Option.isSome_iff_exists.mp h1
    simp only [Nat.add_zero] at hb
    simp [readBytes, hb, hbs]

end Sys2Proof.Machine
end

