-- ==== Sys2Proof/Laws/Packet.lean ====
section
/-! SUPPORT. The Packet Model: what each field of a header is, and that the generator and the parser are inverse
(spec/40_packet_model.md R50 to R55). -/

namespace Sys2Proof

theorem stored_lt (h : Byte) : stored h < 128 := by
  have : ∀ h : Byte, stored h < 128 := by decide
  exact this h

/-- A header means 1 to 128 (R53: "the result is never 0"). -/
theorem count_pos (h : Byte) : 1 ≤ count h := by
  unfold count
  split <;> omega

theorem count_le (h : Byte) : count h ≤ 128 := by
  have := stored_lt h
  unfold count
  split <;> omega

/-- A packet has 2 to 129 bytes (R54). -/
theorem two_le_packetSize (h : Byte) : 2 ≤ packetSize h := by
  have := count_pos h
  unfold packetSize Config.runPacketBytes Config.headerBytes
  split <;> omega

theorem packetSize_run {h : Byte} (hr : isRun h = true) : packetSize h = 2 := by
  simp [packetSize, hr, Config.runPacketBytes]

theorem packetSize_lit {h : Byte} (hr : isRun h = false) : packetSize h = 1 + count h := by
  simp [packetSize, hr, Config.headerBytes]

/-- The run header of a length is a run header of that length (R55; for a length of 1 too, R47). -/
theorem runHeaderBits_fields : ∀ n : Nat, 1 ≤ n → n ≤ 128 →
    isRun (runHeaderBits n) = true ∧ count (runHeaderBits n) = n := by
  have h : ∀ k : Fin 129, 1 ≤ k.val → isRun (runHeaderBits k) = true ∧ count (runHeaderBits k) = k := by decide
  intro n h1 h2
  exact h ⟨n, by omega⟩ h1

/-- The literal header of a length is a literal header of that length (R55). -/
theorem literalHeaderBits_fields : ∀ n : Nat, 1 ≤ n → n ≤ 128 →
    isRun (literalHeaderBits n) = false ∧ count (literalHeaderBits n) = n := by
  have h : ∀ k : Fin 129, 1 ≤ k.val →
      isRun (literalHeaderBits k) = false ∧ count (literalHeaderBits k) = k := by decide
  intro n h1 h2
  exact h ⟨n, by omega⟩ h1

/-- A run header is the run header of its count. -/
theorem runHeaderBits_count (h : Byte) (hr : isRun h = true) : runHeaderBits (count h) = h := by
  have : ∀ h : Byte, isRun h = true → runHeaderBits (count h) = h := by decide
  exact this h hr

/-- A literal header is the literal header of its count. -/
theorem literalHeaderBits_count (h : Byte) (hr : isRun h = false) : literalHeaderBits (count h) = h := by
  have : ∀ h : Byte, isRun h = false → literalHeaderBits (count h) = h := by decide
  exact this h hr

theorem runHeader_eq {n : Nat} (h1 : 2 ≤ n) (h2 : n ≤ 128) : runHeader n = some (runHeaderBits n) := by
  simp [runHeader, Config.minRun, Config.maxRun, h1, h2]

theorem literalHeader_eq {n : Nat} (h1 : 1 ≤ n) (h2 : n ≤ 128) : literalHeader n = some (literalHeaderBits n) := by
  simp [literalHeader, Config.minLit, Config.maxLit, h1, h2]

/-- Reading a run packet: its header and its value byte. -/
theorem decodePacket_run {h v : Byte} {rest : List Byte} (hr : isRun h = true) :
    decodePacket (h :: v :: rest) = .ok (.run (count h) v, rest) := by simp [decodePacket, hr]

/-- Reading a literal packet: its header and as many bytes as it claims. -/
theorem decodePacket_lit {h : Byte} {rest : List Byte} (hr : isRun h = false) (hl : count h ≤ rest.length) :
    decodePacket (h :: rest) = .ok (.lit (rest.take (count h)), rest.drop (count h)) := by
  simp [decodePacket, hr, Nat.not_lt.mpr hl]

/-- What a successful read of a packet says of the bytes: everything the decoder can answer. -/
theorem decodePacket_ok {bs rest : List Byte} {i : Instr} (h : decodePacket bs = .ok (i, rest)) :
    ∃ hd tl, bs = hd :: tl ∧
      ((isRun hd = true ∧ ∃ v, tl = v :: rest ∧ i = .run (count hd) v) ∨
       (isRun hd = false ∧ count hd ≤ tl.length ∧ i = .lit (tl.take (count hd)) ∧ rest = tl.drop (count hd))) := by
  cases bs with
  | nil => simp [decodePacket] at h
  | cons hd tl =>
    refine ⟨hd, tl, rfl, ?_⟩
    cases hr : isRun hd with
    | true =>
      left
      cases tl with
      | nil => simp [decodePacket, hr] at h
      | cons v tl =>
        simp only [decodePacket, hr, if_true, Except.ok.injEq, Prod.mk.injEq] at h
        exact ⟨rfl, v, by rw [h.2], h.1.symm⟩
    | false =>
      right
      by_cases hl : tl.length < count hd
      · simp [decodePacket, hr, hl] at h
      · simp only [decodePacket, hr, hl, Bool.false_eq_true, if_false, Except.ok.injEq, Prod.mk.injEq] at h
        exact ⟨rfl, by omega, h.1.symm, h.2.symm⟩

end Sys2Proof
end

