-- ==== Sys2Proof/Laws/Grouper.lean ====
section
/-! SUPPORT. What the scanner and the grouper answer (spec/42_encoder.md R65 to R68), once, for any byte source:
the bounds, the bytes of a group, that a source with every byte always has a group, and that a source with more
bytes has the same group. -/

namespace Sys2Proof.Machine

/-! ## The bounded comparison -/

theorem differs_false_iff {x : Nat → Option Byte} {N j : Nat} :
    differs x N j = some false ↔ j + 1 < N ∧ ∃ b, x j = some b ∧ x (j + 1) = some b := by
  unfold differs
  split
  · simp; omega
  · rename_i hN
    constructor
    · intro h
      split at h
      · rename_i a b ha hb
        simp only [Option.some.injEq, bne_eq_false_iff_eq] at h
        subst h
        exact ⟨by omega, a, ha, hb⟩
      · cases h
    · rintro ⟨-, b, h1, h2⟩
      simp [h1, h2]

theorem differs_true_iff {x : Nat → Option Byte} {N j : Nat} :
    differs x N j = some true ↔ N ≤ j + 1 ∨ ∃ a b, x j = some a ∧ x (j + 1) = some b ∧ a ≠ b := by
  unfold differs
  split
  · rename_i hN
    simp [hN]
  · rename_i hN
    constructor
    · intro h
      split at h
      · rename_i a b ha hb
        exact .inr ⟨a, b, ha, hb, by simpa using h⟩
      · cases h
    · rintro (h | ⟨a, b, h1, h2, h3⟩)
      · exact absurd h hN
      · simp [h1, h2, h3]

theorem differs_isSome {x : Nat → Option Byte} {N : Nat} (h : ∀ j, j < N → (x j).isSome) {j : Nat} :
    (differs x N j).isSome := by
  unfold differs
  split
  · rfl
  · obtain ⟨a, ha⟩ := Option.isSome_iff_exists.mp (h j (by omega))
    obtain ⟨b, hb⟩ := Option.isSome_iff_exists.mp (h (j + 1) (by omega))
    simp [ha, hb]

/-- `y` gives a byte wherever `x` does, and the same one. -/
def Extends (x y : Nat → Option Byte) : Prop := ∀ j b, x j = some b → y j = some b

theorem differs_mono {x y : Nat → Option Byte} (h : Extends x y) {N j : Nat} {d : Bool}
    (hd : differs x N j = some d) : differs y N j = some d := by
  cases d with
  | false =>
    obtain ⟨h1, b, h2, h3⟩ := differs_false_iff.mp hd
    exact differs_false_iff.mpr ⟨h1, b, h _ _ h2, h _ _ h3⟩
  | true =>
    rcases differs_true_iff.mp hd with h1 | ⟨a, b, h1, h2, h3⟩
    · exact differs_true_iff.mpr (.inl h1)
    · exact differs_true_iff.mpr (.inr ⟨a, b, h _ _ h1, h _ _ h2, h3⟩)

/-! ## The run scan -/

/-- Everything the run loop can answer. -/
theorem runLoop_spec {x : Nat → Option Byte} {N i fuel r r' : Nat} (h : runLoop x N i fuel r = some r')
    (hr : 1 ≤ r) (hf : 128 ≤ r + fuel) :
    r ≤ r' ∧ (r ≤ 128 → r' ≤ 128) ∧ (∀ k, r ≤ k → k < r' → differs x N (i + k - 1) = some false) ∧
      (128 ≤ r' ∨ differs x N (i + r' - 1) = some true) := by
  induction fuel generalizing r with
  | zero =>
    simp only [runLoop, Option.some.injEq] at h
    subst h
    exact ⟨le_refl _, fun h => h, fun k h1 h2 => by omega, .inl (by omega)⟩
  | succ fuel ih =>
    simp only [runLoop] at h
    split at h
    · rename_i hlt
      simp only [Config.maxRun] at hlt
      split at h
      · rename_i hd
        obtain ⟨h1, h2, h3, h4⟩ := ih h (by omega) (by omega)
        refine ⟨by omega, fun _ => h2 (by omega), ?_, h4⟩
        intro k hk1 hk2
        rcases Nat.eq_or_lt_of_le hk1 with rfl | hk1
        · exact hd
        · exact h3 k hk1 hk2
      · rename_i hd
        simp only [Option.some.injEq] at h
        subst h
        exact ⟨le_refl _, fun h => h, fun k h1 h2 => by omega, .inr hd⟩
      · cases h
    · rename_i hlt
      simp only [Config.maxRun] at hlt
      simp only [Option.some.injEq] at h
      subst h
      exact ⟨le_refl _, fun h => h, fun k h1 h2 => by omega, .inl (by omega)⟩

theorem runLoop_isSome {x : Nat → Option Byte} {N i : Nat} (h : ∀ j, j < N → (x j).isSome) (fuel r : Nat) :
    (runLoop x N i fuel r).isSome := by
  induction fuel generalizing r with
  | zero => rfl
  | succ fuel ih =>
    simp only [runLoop]
    split
    · obtain ⟨d, hd⟩ := Option.isSome_iff_exists.mp (differs_isSome h (j := i + r - 1))
      cases d <;> simp [hd, ih]
    · rfl

theorem runLoop_mono {x y : Nat → Option Byte} (hxy : Extends x y) {N i fuel r r' : Nat}
    (h : runLoop x N i fuel r = some r') : runLoop y N i fuel r = some r' := by
  induction fuel generalizing r with
  | zero => exact h
  | succ fuel ih =>
    simp only [runLoop] at h ⊢
    split at h
    · rename_i hlt
      rw [if_pos hlt]
      split at h
      · rename_i hd
        simp only [differs_mono hxy hd]
        exact ih h
      · rename_i hd
        simp only [differs_mono hxy hd]
        exact h
      · cases h
    · rename_i hlt
      rw [if_neg hlt]
      exact h

/-- What `run_scan` answers (R66): between 1 and 128; each byte of the run but the last equals its successor; the
run is capped or its last byte differs from its successor. -/
theorem runScan_spec {x : Nat → Option Byte} {N i r : Nat} (h : runScan x N i = some r) :
    1 ≤ r ∧ r ≤ 128 ∧ (∀ k, k + 1 < r → differs x N (i + k) = some false) ∧
      (r = 128 ∨ differs x N (i + r - 1) = some true) := by
  obtain ⟨h1, h2, h3, h4⟩ := runLoop_spec h (le_refl 1) (by simp [Config.maxRun])
  refine ⟨h1, h2 (by omega), ?_, ?_⟩
  · intro k hk
    have := h3 (k + 1) (by omega) hk
    rwa [show i + (k + 1) - 1 = i + k by omega] at this
  · rcases h4 with h4 | h4
    · left; have := h2 (by omega); omega
    · exact .inr h4

/-- A run lies inside the input. -/
theorem runScan_le {x : Nat → Option Byte} {N i r : Nat} (h : runScan x N i = some r) (hi : i < N) : i + r ≤ N := by
  obtain ⟨h1, -, h3, -⟩ := runScan_spec h
  by_cases hr : r = 1
  · omega
  · have := (differs_false_iff.mp (h3 (r - 2) (by omega))).1
    omega

/-- The bytes of a run are all the same: the byte at its start. -/
theorem runScan_bytes {x : Nat → Option Byte} {N i r : Nat} (h : runScan x N i = some r) (k : Nat) (hk : k < r) :
    x (i + k) = x i := by
  obtain ⟨-, -, h3, -⟩ := runScan_spec h
  induction k with
  | zero => rfl
  | succ k ih =>
    obtain ⟨-, b, h1, h2⟩ := differs_false_iff.mp (h3 k hk)
    rw [← ih (by omega), h1, show i + (k + 1) = i + k + 1 by omega, h2]

/-! ## The literal scan -/

/-- Everything the literal loop can answer. -/
theorem litLoop_spec {x : Nat → Option Byte} {N i fuel l l' : Nat} (h : litLoop x N i fuel l = some l')
    (hf : 128 ≤ l + fuel) (hN : i + l ≤ N) :
    l ≤ l' ∧ (l ≤ 128 → l' ≤ 128) ∧ i + l' ≤ N ∧ (∀ k, l ≤ k → k < l' → differs x N (i + k) = some true) ∧
      (128 ≤ l' ∨ i + l' = N ∨ differs x N (i + l') = some false) := by
  induction fuel generalizing l with
  | zero =>
    simp only [litLoop, Option.some.injEq] at h
    subst h
    exact ⟨le_refl _, fun h => h, hN, fun k h1 h2 => by omega, .inl (by omega)⟩
  | succ fuel ih =>
    simp only [litLoop] at h
    split at h
    · rename_i hlt
      simp only [Config.maxLit] at hlt
      split at h
      · rename_i hd
        obtain ⟨h1, h2, h3, h4, h5⟩ := ih h (by omega) (by omega)
        refine ⟨by omega, fun _ => h2 (by omega), h3, ?_, h5⟩
        intro k hk1 hk2
        rcases Nat.eq_or_lt_of_le hk1 with rfl | hk1
        · exact hd
        · exact h4 k hk1 hk2
      · rename_i hd
        simp only [Option.some.injEq] at h
        subst h
        exact ⟨le_refl _, fun h => h, hN, fun k h1 h2 => by omega, .inr (.inr hd)⟩
      · cases h
    · rename_i hlt
      simp only [Config.maxLit] at hlt
      simp only [Option.some.injEq] at h
      subst h
      exact ⟨le_refl _, fun h => h, hN, fun k h1 h2 => by omega, by omega⟩

theorem litLoop_isSome {x : Nat → Option Byte} {N i : Nat} (h : ∀ j, j < N → (x j).isSome) (fuel l : Nat) :
    (litLoop x N i fuel l).isSome := by
  induction fuel generalizing l with
  | zero => rfl
  | succ fuel ih =>
    simp only [litLoop]
    split
    · obtain ⟨d, hd⟩ := Option.isSome_iff_exists.mp (differs_isSome h (j := i + l))
      cases d <;> simp [hd, ih]
    · rfl

theorem litLoop_mono {x y : Nat → Option Byte} (hxy : Extends x y) {N i fuel l l' : Nat}
    (h : litLoop x N i fuel l = some l') : litLoop y N i fuel l = some l' := by
  induction fuel generalizing l with
  | zero => exact h
  | succ fuel ih =>
    simp only [litLoop] at h ⊢
    split at h
    · rename_i hlt
      rw [if_pos hlt]
      split at h
      · rename_i hd
        simp only [differs_mono hxy hd]
        exact ih h
      · rename_i hd
        simp only [differs_mono hxy hd]
        exact h
      · cases h
    · rename_i hlt
      rw [if_neg hlt]
      exact h

/-- What `lit_scan` answers (R67): at most 128 bytes inside the input, each differing from its successor or having
none; the span is capped, or ends the input, or the next byte equals its successor. -/
theorem litScan_spec {x : Nat → Option Byte} {N i l : Nat} (h : litScan x N i = some l) (hi : i ≤ N) :
    l ≤ 128 ∧ i + l ≤ N ∧ (∀ k, k < l → differs x N (i + k) = some true) ∧
      (l = 128 ∨ i + l = N ∨ differs x N (i + l) = some false) := by
  obtain ⟨h1, h2, h3, h4, h5⟩ := litLoop_spec h (by simp [Config.maxLit]) (by simpa using hi)
  refine ⟨h2 (by omega), h3, fun k hk => h4 k (by omega) hk, ?_⟩
  rcases h5 with h5 | h5
  · left; have := h2 (by omega); omega
  · exact .inr h5

/-! ## The grouper -/

/-- The two answers of `group` (R68). -/
theorem group_cases {x : Nat → Option Byte} {N i : Nat} {g : Kind × Nat} (h : group x N i = some g) :
    (∃ r, runScan x N i = some r ∧ 2 ≤ r ∧ g = (.run, r)) ∨
    (∃ l, runScan x N i = some 1 ∧ litScan x N i = some l ∧ g = (.lit, l)) := by
  unfold group at h
  split at h
  · cases h
  · rename_i r hr
    split at h
    · rename_i h2
      simp only [Config.minRun] at h2
      exact .inl ⟨r, hr, h2, (Option.some.inj h).symm⟩
    · rename_i h2
      simp only [Config.minRun] at h2
      have : r = 1 := by have := (runScan_spec hr).1; omega
      subst this
      split at h
      · cases h
      · rename_i l hl
        exact .inr ⟨l, hr, hl, (Option.some.inj h).symm⟩

/-- A literal has at least one byte: "the first byte is always consumed, because `run_scan = 1` means exactly
`differs(x, N, i)`" (R67). -/
theorem litScan_pos {x : Nat → Option Byte} {N i l : Nat} (hr : runScan x N i = some 1)
    (hl : litScan x N i = some l) (hi : i < N) : 1 ≤ l := by
  have hd : differs x N i = some true := by
    rcases (runScan_spec hr).2.2.2 with h | h
    · exact absurd h (by decide)
    · simpa using h
  obtain ⟨-, -, -, h4⟩ := litScan_spec hl (by omega)
  by_contra h0
  have : l = 0 := by omega
  subst this
  rcases h4 with h | h | h
  · exact absurd h (by decide)
  · omega
  · rw [Nat.add_zero, hd] at h
    cases h

/-- The bounds of a group (R68). -/
theorem group_bounds {x : Nat → Option Byte} {N i : Nat} {g : Kind × Nat} (h : group x N i = some g) (hi : i < N) :
    1 ≤ g.2 ∧ g.2 ≤ 128 ∧ i + g.2 ≤ N ∧ (g.1 = .run → 2 ≤ g.2) := by
  rcases group_cases h with ⟨r, hr, h2, rfl⟩ | ⟨l, hr, hl, rfl⟩
  · exact ⟨by simp; omega, (runScan_spec hr).2.1, runScan_le hr hi, fun _ => h2⟩
  · obtain ⟨h1, h2, -, -⟩ := litScan_spec hl (by omega)
    exact ⟨litScan_pos hr hl hi, h1, h2, fun h => by simp at h⟩

/-- A source that has every byte has a group at every index. -/
theorem group_isSome {x : Nat → Option Byte} {N i : Nat} (h : ∀ j, j < N → (x j).isSome) : (group x N i).isSome := by
  unfold group
  obtain ⟨r, hr⟩ := Option.isSome_iff_exists.mp (runLoop_isSome (i := i) h Config.maxRun 1)
  obtain ⟨l, hl⟩ := Option.isSome_iff_exists.mp (litLoop_isSome (i := i) h Config.maxLit 0)
  have hr' : runScan x N i = some r := hr
  have hl' : litScan x N i = some l := hl
  simp only [hr', hl']
  split <;> rfl

/-- A source with more bytes has the same group. -/
theorem group_mono {x y : Nat → Option Byte} (hxy : Extends x y) {N i : Nat} {g : Kind × Nat}
    (h : group x N i = some g) : group y N i = some g := by
  rcases group_cases h with ⟨r, hr, h2, rfl⟩ | ⟨l, hr, hl, rfl⟩
  · have : runScan y N i = some r := runLoop_mono hxy hr
    simp [group, this, Config.minRun, h2]
  · have h1 : runScan y N i = some 1 := runLoop_mono hxy hr
    have h2 : litScan y N i = some l := litLoop_mono hxy hl
    simp [group, h1, h2, Config.minRun]

/-! ## The bytes of a group -/

theorem readBytes_mono {x y : Nat → Option Byte} (hxy : Extends x y) {a n : Nat} {bs : List Byte}
    (h : readBytes x a n = some bs) : readBytes y a n = some bs := by
  obtain ⟨hlen, hall⟩ := readBytes_eq_some.mp h
  refine readBytes_eq_some.mpr ⟨hlen, fun k hk => ?_⟩
  have hk' := hall k hk
  rw [List.getElem?_eq_getElem (by omega)] at hk' ⊢
  exact hxy _ _ hk'

theorem groupBytes_mono {x y : Nat → Option Byte} (hxy : Extends x y) {i : Nat} {g : Kind × Nat} {bs : List Byte}
    (h : groupBytes x i g = some bs) : groupBytes y i g = some bs := by
  obtain ⟨k, len⟩ := g
  cases k with
  | run =>
    simp only [groupBytes] at h ⊢
    split at h
    · rename_i hd v h1 h2
      simp only [h1, hxy _ _ h2]
      exact h
    · cases h
  | lit =>
    simp only [groupBytes] at h ⊢
    split at h
    · rename_i hd v h1 h2
      simp only [h1, readBytes_mono hxy h2]
      exact h
    · cases h

/-- The bytes of an emitted packet are as many as the group's size (R57, R69, R70). -/
theorem groupBytes_length {x : Nat → Option Byte} {i : Nat} {g : Kind × Nat} {bs : List Byte}
    (h : groupBytes x i g = some bs) : bs.length = groupSize g := by
  obtain ⟨k, len⟩ := g
  cases k with
  | run =>
    simp only [groupBytes] at h
    split at h
    · obtain rfl := Option.some.inj h
      rfl
    · cases h
  | lit =>
    simp only [groupBytes] at h
    split at h
    · rename_i hd bytes h1 h2
      obtain rfl := Option.some.inj h
      simp [groupSize, Config.headerBytes, (readBytes_eq_some.mp h2).1, Nat.add_comm]
    · cases h

/-- A group of a source that has every byte has its packet's bytes. -/
theorem groupBytes_isSome {x : Nat → Option Byte} {N i : Nat} {g : Kind × Nat} (hx : ∀ j, j < N → (x j).isSome)
    (h : group x N i = some g) (hi : i < N) : (groupBytes x i g).isSome := by
  obtain ⟨h1, h2, h3, h4⟩ := group_bounds h hi
  obtain ⟨k, len⟩ := g
  simp only at h1 h2 h3 h4
  cases k with
  | run =>
    obtain ⟨v, hv⟩ := Option.isSome_iff_exists.mp (hx i hi)
    simp [groupBytes, runHeader_eq (h4 rfl) h2, hv]
  | lit =>
    obtain ⟨bs, hbs⟩ := Option.isSome_iff_exists.mp
      (readBytes_isSome (x := x) (a := i) (n := len) (fun k hk => hx (i + k) (by omega)))
    simp [groupBytes, literalHeader_eq h1 h2, hbs]

/-! ## Byte sequences as sources -/

theorem bytesOf_isSome {x : List Byte} {j : Nat} (h : j < x.length) : (bytesOf x j).isSome := by
  simp [bytesOf, h]

theorem readBytes_bytesOf {x : List Byte} {a n : Nat} (h : a + n ≤ x.length) :
    readBytes (bytesOf x) a n = some ((x.drop a).take n) := by
  refine readBytes_eq_some.mpr ⟨by simp; omega, fun k hk => ?_⟩
  simp [bytesOf, hk, List.getElem?_drop]

/-! ## The input from an index on ("`group` is a pure function of `x[i .. N)` alone", R68) -/

theorem differs_drop (x : List Byte) (i j : Nat) :
    differs (bytesOf (x.drop i)) (x.length - i) j = differs (bytesOf x) x.length (i + j) := by
  unfold differs
  by_cases h : x.length ≤ i + j + 1
  · rw [if_pos (by omega), if_pos h]
  · rw [if_neg (by omega), if_neg h]
    simp [bytesOf, List.getElem?_drop, Nat.add_assoc]

theorem runLoop_drop (x : List Byte) (i k fuel r : Nat) (hr : 1 ≤ r) :
    runLoop (bytesOf (x.drop i)) (x.length - i) k fuel r = runLoop (bytesOf x) x.length (i + k) fuel r := by
  induction fuel generalizing r with
  | zero => rfl
  | succ fuel ih =>
    simp only [runLoop]
    rw [differs_drop, ih (r + 1) (by omega), show i + (k + r - 1) = i + k + r - 1 by omega]

theorem litLoop_drop (x : List Byte) (i k fuel l : Nat) :
    litLoop (bytesOf (x.drop i)) (x.length - i) k fuel l = litLoop (bytesOf x) x.length (i + k) fuel l := by
  induction fuel generalizing l with
  | zero => rfl
  | succ fuel ih =>
    simp only [litLoop]
    rw [differs_drop, ih, ← Nat.add_assoc]
    have h : (l < Config.maxLit ∧ k + l < x.length - i) ↔ (l < Config.maxLit ∧ i + k + l < x.length) := by omega
    by_cases h' : l < Config.maxLit ∧ i + k + l < x.length
    · rw [if_pos h', if_pos (h.mpr h')]
    · rw [if_neg h', if_neg (fun h'' => h' (h.mp h''))]

theorem group_drop (x : List Byte) (i k : Nat) :
    group (bytesOf (x.drop i)) (x.drop i).length k = group (bytesOf x) x.length (i + k) := by
  simp only [List.length_drop, group, runScan, litScan, runLoop_drop _ _ _ _ _ (le_refl 1), litLoop_drop]

theorem readBytes_drop (x : List Byte) (i k n : Nat) :
    readBytes (bytesOf (x.drop i)) k n = readBytes (bytesOf x) (i + k) n := by
  induction n generalizing k with
  | zero => rfl
  | succ n ih => simp [readBytes, ih, bytesOf, List.getElem?_drop, Nat.add_assoc]

theorem groupBytes_drop (x : List Byte) (i k : Nat) (g : Kind × Nat) :
    groupBytes (bytesOf (x.drop i)) k g = groupBytes (bytesOf x) (i + k) g := by
  obtain ⟨kind, len⟩ := g
  cases kind with
  | run => simp only [groupBytes, bytesOf, List.getElem?_drop]
  | lit => simp only [groupBytes, readBytes_drop]

end Sys2Proof.Machine
end

