-- ==== Sys2Proof/Laws/Codec.lean ====
section
/-! SUPPORT. One packet of each of the four functions: how `pes`, `pds`, `enc` and `dec` unfold at an index, whatever the
fuel, as long as it is enough for the bytes that are left. -/

namespace Sys2Proof.Machine

/-- A byte sequence has a group at every index below its length, with its packet's bytes. -/
theorem group_bytesOf {x : List Byte} {i : Nat} (hi : i < x.length) :
    ∃ g bs, group (bytesOf x) x.length i = some g ∧ groupBytes (bytesOf x) i g = some bs ∧
      bs.length = groupSize g ∧ 1 ≤ g.2 ∧ g.2 ≤ 128 ∧ i + g.2 ≤ x.length := by
  have hx : ∀ j, j < x.length → (bytesOf x j).isSome := fun j hj => bytesOf_isSome hj
  obtain ⟨g, hg⟩ := Option.isSome_iff_exists.mp (group_isSome (i := i) hx)
  obtain ⟨bs, hbs⟩ := Option.isSome_iff_exists.mp (groupBytes_isSome hx hg hi)
  obtain ⟨h1, h2, h3, -⟩ := group_bounds hg hi
  exact ⟨g, bs, hg, hbs, groupBytes_length hbs, h1, h2, h3⟩

/-! ## `pes` -/

theorem pesFrom_end {x : List Byte} {f i : Nat} (h : x.length ≤ i) : pesFrom x f i = 0 := by
  cases f <;> simp [pesFrom, Nat.not_lt.mpr h]

theorem pesFrom_fuel {x : List Byte} {f f' i : Nat} (h : x.length ≤ i + f) (h' : x.length ≤ i + f') :
    pesFrom x f i = pesFrom x f' i := by
  induction f generalizing f' i with
  | zero => rw [pesFrom_end (by omega), pesFrom_end (by omega)]
  | succ f ih =>
    by_cases hi : i < x.length
    · obtain ⟨g, -, hg, -, -, h1, -, -⟩ := group_bytesOf hi
      cases f' with
      | zero => omega
      | succ f' => simp only [pesFrom, if_pos hi, hg, ih (f' := f') (i := i + g.2) (by omega) (by omega)]
    · rw [pesFrom_end (by omega), pesFrom_end (by omega)]

/-- One packet of the encoded-size walk. -/
theorem pesFrom_step {x : List Byte} {f i : Nat} {g : Kind × Nat} (hi : i < x.length) (hf : x.length ≤ i + f)
    (hg : group (bytesOf x) x.length i = some g) : pesFrom x f i = groupSize g + pesFrom x f (i + g.2) := by
  cases f with
  | zero => omega
  | succ f =>
    have h1 := (group_bounds hg hi).1
    simp only [pesFrom, if_pos hi, hg]
    rw [pesFrom_fuel (f := f) (f' := f + 1) (by omega) (by omega)]
    rfl

/-! ## `pds` -/

theorem pdsFrom_end {y : List Byte} {f i : Nat} (h : y.length ≤ i) : pdsFrom y f i = 0 := by
  cases f <;> simp [pdsFrom, h]

theorem pdsFrom_fuel {y : List Byte} {f f' i : Nat} (h : y.length ≤ i + f) (h' : y.length ≤ i + f') :
    pdsFrom y f i = pdsFrom y f' i := by
  induction f generalizing f' i with
  | zero => rw [pdsFrom_end (by omega), pdsFrom_end (by omega)]
  | succ f ih =>
    by_cases hi : i < y.length
    · cases f' with
      | zero => omega
      | succ f' =>
        have := two_le_packetSize y[i]
        simp only [pdsFrom, List.getElem?_eq_getElem hi]
        rw [ih (f' := f') (by omega) (by omega)]
    · rw [pdsFrom_end (by omega), pdsFrom_end (by omega)]

/-- One packet of the decoded-size walk. -/
theorem pdsFrom_step {y : List Byte} {f i : Nat} {h : Byte} (hh : y[i]? = some h) (hf : y.length ≤ i + f) :
    pdsFrom y f i = count h + pdsFrom y f (min (i + packetSize h) y.length) := by
  have hi : i < y.length := (List.getElem?_eq_some_iff.mp hh).1
  cases f with
  | zero => omega
  | succ f =>
    have := two_le_packetSize h
    simp only [pdsFrom, hh]
    rw [pdsFrom_fuel (f := f) (f' := f + 1) (by omega) (by omega)]
    rfl

/-! ## `enc` -/

theorem encFrom_end {x : List Byte} {f i : Nat} (h : x.length ≤ i) : encFrom x f i = [] := by
  cases f <;> simp [encFrom, Nat.not_lt.mpr h]

theorem encFrom_fuel {x : List Byte} {f f' i : Nat} (h : x.length ≤ i + f) (h' : x.length ≤ i + f') :
    encFrom x f i = encFrom x f' i := by
  induction f generalizing f' i with
  | zero => rw [encFrom_end (by omega), encFrom_end (by omega)]
  | succ f ih =>
    by_cases hi : i < x.length
    · obtain ⟨g, bs, hg, hbs, -, h1, -, -⟩ := group_bytesOf hi
      cases f' with
      | zero => omega
      | succ f' => simp only [encFrom, if_pos hi, hg, hbs, ih (f' := f') (i := i + g.2) (by omega) (by omega)]
    · rw [encFrom_end (by omega), encFrom_end (by omega)]

/-- One packet of the encoding. -/
theorem encFrom_step {x : List Byte} {f i : Nat} {g : Kind × Nat} {bs : List Byte} (hi : i < x.length)
    (hf : x.length ≤ i + f) (hg : group (bytesOf x) x.length i = some g)
    (hbs : groupBytes (bytesOf x) i g = some bs) : encFrom x f i = bs ++ encFrom x f (i + g.2) := by
  cases f with
  | zero => omega
  | succ f =>
    have h1 := (group_bounds hg hi).1
    simp only [encFrom, if_pos hi, hg, hbs]
    rw [encFrom_fuel (f := f) (f' := f + 1) (by omega) (by omega)]
    rfl

/-! ## `dec` -/

theorem decFrom_end {y : List Byte} {f i : Nat} (h : y.length ≤ i) : decFrom y f i = some [] := by
  cases f <;> simp [decFrom, h]

theorem decFrom_fuel {y : List Byte} {f f' i : Nat} (h : y.length ≤ i + f) (h' : y.length ≤ i + f') :
    decFrom y f i = decFrom y f' i := by
  induction f generalizing f' i with
  | zero => rw [decFrom_end (by omega), decFrom_end (by omega)]
  | succ f ih =>
    by_cases hi : i < y.length
    · cases f' with
      | zero => omega
      | succ f' =>
        have := count_pos y[i]
        simp only [decFrom, List.getElem?_eq_getElem hi]
        rw [ih (f' := f') (i := i + 2) (by omega) (by omega),
          ih (f' := f') (i := i + 1 + count y[i]) (by omega) (by omega)]
    · rw [decFrom_end (by omega), decFrom_end (by omega)]

/-- One run packet of the decoding. -/
theorem decFrom_run {y : List Byte} {f i : Nat} {h v : Byte} (hh : y[i]? = some h) (hr : isRun h = true)
    (hv : y[i + 1]? = some v) (hf : y.length ≤ i + f) :
    decFrom y f i = (decFrom y f (i + 2)).map (List.replicate (count h) v ++ ·) := by
  have hi : i < y.length := (List.getElem?_eq_some_iff.mp hh).1
  cases f with
  | zero => omega
  | succ f =>
    rw [decFrom_fuel (f := f + 1) (f' := f) (i := i + 2) (by omega) (by omega)]
    simp only [decFrom, hh, hr, if_true, hv]

/-- One literal packet of the decoding. -/
theorem decFrom_lit {y : List Byte} {f i : Nat} {h : Byte} (hh : y[i]? = some h) (hr : isRun h = false)
    (hl : i + 1 + count h ≤ y.length) (hf : y.length ≤ i + f) :
    decFrom y f i = (decFrom y f (i + 1 + count h)).map ((y.drop (i + 1)).take (count h) ++ ·) := by
  have hi : i < y.length := (List.getElem?_eq_some_iff.mp hh).1
  cases f with
  | zero => omega
  | succ f =>
    rw [decFrom_fuel (f := f + 1) (f' := f) (i := i + 1 + count h) (by omega) (by omega)]
    simp only [decFrom, hh, hr, Bool.false_eq_true, if_false, if_neg (Nat.not_lt.mpr hl)]

/-- A packet cut short. -/
theorem decFrom_cut {y : List Byte} {f i : Nat} {h : Byte} (hh : y[i]? = some h)
    (hl : y.length < i + packetSize h) (hf : y.length ≤ i + f) : decFrom y f i = none := by
  have hi : i < y.length := (List.getElem?_eq_some_iff.mp hh).1
  cases f with
  | zero => omega
  | succ f =>
    cases hr : isRun h with
    | true =>
      rw [packetSize_run hr] at hl
      have : y[i + 1]? = none := List.getElem?_eq_none (by omega)
      simp only [decFrom, hh, hr, if_true, this]
    | false =>
      rw [packetSize_lit hr] at hl
      have : y.length < i + 1 + count h := by omega
      simp only [decFrom, hh, hr, Bool.false_eq_true, if_false, if_pos this]

/-! ## From an index on, each function sees only what is left -/

theorem pesFrom_drop (x : List Byte) (f i k : Nat) : pesFrom (x.drop i) f k = pesFrom x f (i + k) := by
  induction f generalizing k with
  | zero => rfl
  | succ f ih =>
    simp only [pesFrom, group_drop, ih, Nat.add_assoc]
    have h : k < (x.drop i).length ↔ i + k < x.length := by rw [List.length_drop]; omega
    by_cases h' : i + k < x.length
    · rw [if_pos h', if_pos (h.mpr h')]
    · rw [if_neg h', if_neg (fun h'' => h' (h.mp h''))]

theorem encFrom_drop (x : List Byte) (f i k : Nat) : encFrom (x.drop i) f k = encFrom x f (i + k) := by
  induction f generalizing k with
  | zero => rfl
  | succ f ih =>
    simp only [encFrom, group_drop, groupBytes_drop, ih, Nat.add_assoc]
    have h : k < (x.drop i).length ↔ i + k < x.length := by rw [List.length_drop]; omega
    by_cases h' : i + k < x.length
    · rw [if_pos h', if_pos (h.mpr h')]
    · rw [if_neg h', if_neg (fun h'' => h' (h.mp h''))]

theorem pdsFrom_drop (y : List Byte) (f i k : Nat) : pdsFrom (y.drop i) f k = pdsFrom y f (i + k) := by
  induction f generalizing k with
  | zero => rfl
  | succ f ih =>
    simp only [pdsFrom, List.getElem?_drop, ih]
    cases hh : y[i + k]? with
    | none => rfl
    | some h =>
      have hi : i + k < y.length := (List.getElem?_eq_some_iff.mp hh).1
      have : i + min (k + packetSize h) (y.drop i).length = min (i + k + packetSize h) y.length := by
        rw [List.length_drop]; omega
      simp only [this]

theorem decFrom_drop (y : List Byte) (f i k : Nat) : decFrom (y.drop i) f k = decFrom y f (i + k) := by
  induction f generalizing k with
  | zero => rfl
  | succ f ih =>
    simp only [decFrom, List.getElem?_drop, ih, List.drop_drop, List.length_drop, ← Nat.add_assoc]
    cases hh : y[i + k]? with
    | none => rfl
    | some h =>
      have hi : i + k < y.length := (List.getElem?_eq_some_iff.mp hh).1
      have hc : y.length - i < k + 1 + count h ↔ y.length < i + k + 1 + count h := by omega
      simp only [hc]

theorem walkEnd_end {y : List Byte} {f i : Nat} (h : y.length ≤ i) : walkEnd y f i = i := by
  cases f <;> simp [walkEnd, h]

theorem walkEnd_fuel {y : List Byte} {f f' i : Nat} (h : y.length ≤ i + f) (h' : y.length ≤ i + f') :
    walkEnd y f i = walkEnd y f' i := by
  induction f generalizing f' i with
  | zero => rw [walkEnd_end (by omega), walkEnd_end (by omega)]
  | succ f ih =>
    by_cases hi : i < y.length
    · cases f' with
      | zero => omega
      | succ f' =>
        have := two_le_packetSize y[i]
        simp only [walkEnd, List.getElem?_eq_getElem hi]
        exact ih (by omega) (by omega)
    · rw [walkEnd_end (by omega), walkEnd_end (by omega)]

/-- One packet of the packet walk. -/
theorem walkEnd_step {y : List Byte} {f i : Nat} {h : Byte} (hh : y[i]? = some h) (hf : y.length ≤ i + f) :
    walkEnd y f i = walkEnd y f (i + packetSize h) := by
  have hi : i < y.length := (List.getElem?_eq_some_iff.mp hh).1
  cases f with
  | zero => omega
  | succ f =>
    have := two_le_packetSize h
    rw [walkEnd_fuel (f := f + 1) (f' := f) (i := i + packetSize h) (by omega) (by omega)]
    simp only [walkEnd, hh]

/-! ## The functions, packet by packet -/

/-- The first packet of an encoding, and the encoding of what is left. -/
theorem enc_step {x : List Byte} (hx : x ≠ []) :
    ∃ g bs, group (bytesOf x) x.length 0 = some g ∧ groupBytes (bytesOf x) 0 g = some bs ∧
      1 ≤ g.2 ∧ g.2 ≤ 128 ∧ g.2 ≤ x.length ∧ enc x = bs ++ enc (x.drop g.2) := by
  have h0 : 0 < x.length := List.length_pos_iff.mpr hx
  obtain ⟨g, bs, hg, hbs, -, h1, h2, h3⟩ := group_bytesOf h0
  refine ⟨g, bs, hg, hbs, h1, h2, by omega, ?_⟩
  unfold enc
  rw [encFrom_step h0 (by omega) hg hbs, encFrom_fuel (f' := (x.drop g.2).length) (by omega) (by simp; omega),
    ← Nat.add_zero (0 + g.2), Nat.zero_add, ← encFrom_drop]

/-- The size of the first packet of an encoding, and the sizes of what is left. -/
theorem pes_step {x : List Byte} {g : Kind × Nat} (hx : x ≠ []) (hg : group (bytesOf x) x.length 0 = some g) :
    pes x = groupSize g + pes (x.drop g.2) := by
  have h0 : 0 < x.length := List.length_pos_iff.mpr hx
  unfold pes
  rw [pesFrom_step h0 (by omega) hg, pesFrom_fuel (f' := (x.drop g.2).length) (by omega) (by simp; omega),
    ← Nat.add_zero (0 + g.2), Nat.zero_add, ← pesFrom_drop]

theorem pds_cons (h : Byte) (tl : List Byte) : pds (h :: tl) = count h + pds ((h :: tl).drop (packetSize h)) := by
  have h2 := two_le_packetSize h
  unfold pds
  rw [pdsFrom_step (h := h) rfl (by omega)]
  congr 1
  by_cases hl : packetSize h ≤ (h :: tl).length
  · rw [Nat.min_eq_left (by omega), pdsFrom_fuel (f' := ((h :: tl).drop (packetSize h)).length) (by omega)
      (by rw [List.length_drop]; omega), ← Nat.add_zero (0 + packetSize h), Nat.zero_add, ← pdsFrom_drop]
  · rw [pdsFrom_end (by omega), pdsFrom_end (by rw [List.length_drop]; omega)]

theorem dec_run_cons {h v : Byte} {rest : List Byte} (hr : isRun h = true) :
    dec (h :: v :: rest) = (dec rest).map (List.replicate (count h) v ++ ·) := by
  unfold dec
  rw [decFrom_run (h := h) (v := v) rfl hr rfl (by omega), decFrom_fuel (f' := rest.length) (by simp) (by simp; omega)]
  have := decFrom_drop (h :: v :: rest) rest.length 2 0
  simp only [List.drop_succ_cons, List.drop_zero] at this
  rw [this]

theorem dec_lit_append {h : Byte} {payload rest : List Byte} (hr : isRun h = false) (hl : payload.length = count h) :
    dec (h :: payload ++ rest) = (dec rest).map (payload ++ ·) := by
  have hlen : (h :: payload ++ rest).length = 1 + count h + rest.length := by simp; omega
  have hd : (h :: payload ++ rest).drop (1 + count h) = rest := by
    rw [Nat.add_comm, List.cons_append, List.drop_succ_cons, ← hl, List.drop_left]
  unfold dec
  rw [decFrom_lit (h := h) rfl hr (by omega) (by omega), decFrom_fuel (f' := rest.length) (by omega) (by omega)]
  have := decFrom_drop (h :: payload ++ rest) rest.length (1 + count h) 0
  rw [hd] at this
  rw [this]
  simp [← hl]

theorem dec_cut {h : Byte} {tl : List Byte} (hl : tl.length + 1 < packetSize h) : dec (h :: tl) = none :=
  decFrom_cut (h := h) rfl (by simpa using hl) (by omega)

/-- The first packet of a stream: cut short, a run, or a literal. -/
theorem stream_cases (h : Byte) (tl : List Byte) :
    (tl.length + 1 < packetSize h) ∨
    (isRun h = true ∧ ∃ v rest, tl = v :: rest) ∨
    (isRun h = false ∧ ∃ payload rest, payload.length = count h ∧ tl = payload ++ rest) := by
  cases hr : isRun h with
  | true =>
    rw [packetSize_run hr]
    cases tl with
    | nil => simp
    | cons v rest => exact .inr (.inl ⟨rfl, v, rest, rfl⟩)
  | false =>
    rw [packetSize_lit hr]
    by_cases hl : count h ≤ tl.length
    · exact .inr (.inr ⟨rfl, tl.take (count h), tl.drop (count h), by simp; omega, by simp⟩)
    · left; omega

end Sys2Proof.Machine
end

