-- ==== Sys2Proof/Laws/State.lean ====
section
/-! SUPPORT. What each update of the state does to each field, so that no later proof unfolds an update. -/

namespace Sys2Proof.Machine

variable (s : State)

section Begin
@[simp] theorem begin_inMem : s.begin.inMem = s.inMem := rfl
@[simp] theorem begin_outMem : s.begin.outMem = s.outMem := rfl
@[simp] theorem begin_op : s.begin.op = s.op := rfl
@[simp] theorem begin_inLen : s.begin.inLen = s.inLen := rfl
@[simp] theorem begin_outCap : s.begin.outCap = s.outCap := rfl
@[simp] theorem begin_status : s.begin.status = .busy := rfl
@[simp] theorem begin_result : s.begin.result = 0 := rfl
@[simp] theorem begin_phase : s.begin.phase = .size := rfl
@[simp] theorem begin_ip : s.begin.ip = 0 := rfl
@[simp] theorem begin_acc : s.begin.acc = 0 := rfl
@[simp] theorem begin_wp : s.begin.wp = 0 := rfl
@[simp] theorem begin_host : s.begin.host = s.host := rfl
@[simp] theorem begin_freeCount : s.begin.freeCount = s.freeCount := rfl
end Begin

section Raise
variable (e : CodecError)
@[simp] theorem raise_inMem : (s.raise e).inMem = s.inMem := rfl
@[simp] theorem raise_outMem : (s.raise e).outMem = [] := rfl
@[simp] theorem raise_op : (s.raise e).op = s.op := rfl
@[simp] theorem raise_inLen : (s.raise e).inLen = s.inLen := rfl
@[simp] theorem raise_outCap : (s.raise e).outCap = s.outCap := rfl
@[simp] theorem raise_status : (s.raise e).status = e.status := rfl
@[simp] theorem raise_result : (s.raise e).result = 0 := rfl
@[simp] theorem raise_phase : (s.raise e).phase = .idle := rfl
@[simp] theorem raise_host : (s.raise e).host = s.host := rfl
@[simp] theorem raise_freeCount : (s.raise e).freeCount = s.freeCount + 1 := rfl
end Raise

section Ends
@[simp] theorem endPrediction_inMem : s.endPrediction.inMem = s.inMem := rfl
@[simp] theorem endPrediction_outMem : s.endPrediction.outMem = s.outMem := rfl
@[simp] theorem endPrediction_op : s.endPrediction.op = s.op := rfl
@[simp] theorem endPrediction_inLen : s.endPrediction.inLen = s.inLen := rfl
@[simp] theorem endPrediction_outCap : s.endPrediction.outCap = s.outCap := rfl
@[simp] theorem endPrediction_status : s.endPrediction.status = .done := rfl
@[simp] theorem endPrediction_result : s.endPrediction.result = s.acc := rfl
@[simp] theorem endPrediction_phase : s.endPrediction.phase = .idle := rfl
@[simp] theorem endPrediction_host : s.endPrediction.host = s.host := rfl
@[simp] theorem endPrediction_freeCount : s.endPrediction.freeCount = s.freeCount := rfl
@[simp] theorem endFillPass_inMem : s.endFillPass.inMem = s.inMem := rfl
@[simp] theorem endFillPass_outMem : s.endFillPass.outMem = s.outMem := rfl
@[simp] theorem endFillPass_op : s.endFillPass.op = s.op := rfl
@[simp] theorem endFillPass_inLen : s.endFillPass.inLen = s.inLen := rfl
@[simp] theorem endFillPass_outCap : s.endFillPass.outCap = s.outCap := rfl
@[simp] theorem endFillPass_status : s.endFillPass.status = .done := rfl
@[simp] theorem endFillPass_result : s.endFillPass.result = s.wp := rfl
@[simp] theorem endFillPass_phase : s.endFillPass.phase = .idle := rfl
@[simp] theorem endFillPass_host : s.endFillPass.host = s.host := rfl
@[simp] theorem endFillPass_freeCount : s.endFillPass.freeCount = s.freeCount := rfl
end Ends

section ChargeSize
variable (size next : Nat)
@[simp] theorem chargeSize_inMem : (s.chargeSize size next).inMem = s.inMem := rfl
@[simp] theorem chargeSize_outMem : (s.chargeSize size next).outMem = s.outMem := rfl
@[simp] theorem chargeSize_op : (s.chargeSize size next).op = s.op := rfl
@[simp] theorem chargeSize_inLen : (s.chargeSize size next).inLen = s.inLen := rfl
@[simp] theorem chargeSize_outCap : (s.chargeSize size next).outCap = s.outCap := rfl
@[simp] theorem chargeSize_status : (s.chargeSize size next).status = s.status := rfl
@[simp] theorem chargeSize_result : (s.chargeSize size next).result = s.result := rfl
@[simp] theorem chargeSize_phase : (s.chargeSize size next).phase = s.phase := rfl
@[simp] theorem chargeSize_ip : (s.chargeSize size next).ip = next := rfl
@[simp] theorem chargeSize_acc : (s.chargeSize size next).acc = s.acc + size := rfl
@[simp] theorem chargeSize_wp : (s.chargeSize size next).wp = s.wp := rfl
@[simp] theorem chargeSize_host : (s.chargeSize size next).host = s.host := rfl
@[simp] theorem chargeSize_freeCount : (s.chargeSize size next).freeCount = s.freeCount := rfl
end ChargeSize

section HardwareReset
@[simp] theorem hardwareReset_status : s.hardwareReset.status = .idle := rfl
@[simp] theorem hardwareReset_phase : s.hardwareReset.phase = .idle := rfl
@[simp] theorem hardwareReset_result : s.hardwareReset.result = 0 := rfl
@[simp] theorem hardwareReset_inMem : s.hardwareReset.inMem = [] := rfl
@[simp] theorem hardwareReset_outMem : s.hardwareReset.outMem = [] := rfl
@[simp] theorem hardwareReset_host : s.hardwareReset.host = s.host := rfl
@[simp] theorem hardwareReset_freeCount : s.hardwareReset.freeCount = s.freeCount := rfl
end HardwareReset

/-- An exception never leaves the engine busy. -/
@[simp] theorem codecError_status_ne_busy (e : CodecError) : e.status ≠ .busy := by cases e <;> decide

end Sys2Proof.Machine
end

