-- ==== Sys2Proof/Laws/Ops.lean ====
section
/-! SUPPORT. What each shared operation can answer, said once: later proofs cite these and do not unfold the
operations. -/

namespace Sys2Proof.Machine

/-! ## Reading the input -/

theorem inByte_eq {s : State} {a : Nat} (h : a < s.inLen) : s.inByte a = s.inMem.read a := by simp [State.inByte, h]

theorem inByte_lt {s : State} {a : Nat} {b : Byte} (h : s.inByte a = some b) : a < s.inLen := by
  by_contra hn
  simp [State.inByte, hn] at h

/-- The whole input, byte by byte. -/
theorem input_eq_some {s : State} {x : List Byte} :
    s.input = some x ↔ x.length = s.inLen ∧ ∀ k, s.inByte k = x[k]? := by
  unfold State.input
  rw [readBytes_eq_some]
  constructor
  · rintro ⟨hlen, h⟩
    refine ⟨hlen, fun k => ?_⟩
    by_cases hk : k < s.inLen
    · simpa using h k hk
    · rw [List.getElem?_eq_none (by omega)]
      simp [State.inByte, hk]
  · rintro ⟨hlen, h⟩
    exact ⟨hlen, fun k _ => by simpa using h k⟩

/-- With the whole input written, the engine's byte source is the byte sequence. -/
theorem inByte_of_input {s : State} {x : List Byte} (h : s.input = some x) : s.inByte = bytesOf x :=
  funext (input_eq_some.mp h).2

theorem length_of_input {s : State} {x : List Byte} (h : s.input = some x) : x.length = s.inLen :=
  (input_eq_some.mp h).1

/-! ## Writing the output -/

/-- Everything a fill step's write can answer. -/
theorem emit_cases (s : State) (bytes : List Byte) (covered : Nat) :
    (s.wp + bytes.length ≤ s.outCap ∧
      s.emit bytes covered = .next { s with
        outMem := s.outMem.writeBytes s.wp bytes, wp := s.wp + bytes.length, ip := s.ip + covered }) ∨
    (s.outCap < s.wp + bytes.length ∧ s.emit bytes covered = .refused .writeOutsideCapacity) := by
  by_cases h : s.wp + bytes.length ≤ s.outCap
  · exact .inl ⟨h, by simp [State.emit, h]⟩
  · exact .inr ⟨by omega, by simp [State.emit, h]⟩

theorem emit_next {s t : State} {bytes : List Byte} {covered : Nat} (h : s.emit bytes covered = .next t) :
    s.wp + bytes.length ≤ s.outCap ∧ t = { s with
      outMem := s.outMem.writeBytes s.wp bytes, wp := s.wp + bytes.length, ip := s.ip + covered } := by
  rcases emit_cases s bytes covered with ⟨h1, h2⟩ | ⟨h1, h2⟩
  · rw [h2] at h
    exact ⟨h1, (Host.Outcome.next.inj h).symm⟩
  · rw [h2] at h
    cases h

theorem emit_eq {s : State} {bytes : List Byte} {covered : Nat} (h : s.wp + bytes.length ≤ s.outCap) :
    s.emit bytes covered = .next { s with
      outMem := s.outMem.writeBytes s.wp bytes, wp := s.wp + bytes.length, ip := s.ip + covered } := by
  simp [State.emit, h]

/-! ## The sequencing table (R81), one row each -/

section Sequence
variable {code : CommandCode} {sizeStep endSize fillStep endFill : State → Out} {s : State}

theorem sequence_launch (hb : s.status ≠ .busy) :
    sequence code sizeStep endSize fillStep endFill s = .next { s with op := code }.begin := by
  simp [sequence, hb]

theorem sequence_other (hb : s.status = .busy) (ho : s.op ≠ code) :
    sequence code sizeStep endSize fillStep endFill s = .next s := by simp [sequence, hb, ho]

theorem sequence_size (hb : s.status = .busy) (ho : s.op = code) (hp : s.phase = .size) (hi : s.ip < s.inLen) :
    sequence code sizeStep endSize fillStep endFill s = sizeStep s := by simp [sequence, hb, ho, hp, hi]

theorem sequence_endSize (hb : s.status = .busy) (ho : s.op = code) (hp : s.phase = .size) (hi : ¬ s.ip < s.inLen) :
    sequence code sizeStep endSize fillStep endFill s = endSize s := by simp [sequence, hb, ho, hp, hi]

theorem sequence_fill (hb : s.status = .busy) (ho : s.op = code) (hp : s.phase = .fill) (hi : s.ip < s.inLen) :
    sequence code sizeStep endSize fillStep endFill s = fillStep s := by simp [sequence, hb, ho, hp, hi]

theorem sequence_endFill (hb : s.status = .busy) (ho : s.op = code) (hp : s.phase = .fill) (hi : ¬ s.ip < s.inLen) :
    sequence code sizeStep endSize fillStep endFill s = endFill s := by simp [sequence, hb, ho, hp, hi]

/-- Every row at once: everything `sequence` can answer with a next state. -/
theorem sequence_next {t : State} (h : sequence code sizeStep endSize fillStep endFill s = .next t) :
    (s.status ≠ .busy ∧ t = { s with op := code }.begin) ∨
    (s.status = .busy ∧ s.op ≠ code ∧ t = s) ∨
    (s.status = .busy ∧ s.op = code ∧ s.phase = .size ∧ s.ip < s.inLen ∧ sizeStep s = .next t) ∨
    (s.status = .busy ∧ s.op = code ∧ s.phase = .size ∧ s.inLen ≤ s.ip ∧ endSize s = .next t) ∨
    (s.status = .busy ∧ s.op = code ∧ s.phase = .fill ∧ s.ip < s.inLen ∧ fillStep s = .next t) ∨
    (s.status = .busy ∧ s.op = code ∧ s.phase = .fill ∧ s.inLen ≤ s.ip ∧ endFill s = .next t) := by
  by_cases hb : s.status = .busy
  · by_cases ho : s.op = code
    · cases hp : s.phase with
      | idle => simp [sequence, hb, ho, hp] at h
      | size =>
        by_cases hi : s.ip < s.inLen
        · rw [sequence_size hb ho hp hi] at h; tauto
        · rw [sequence_endSize hb ho hp hi] at h; have := Nat.not_lt.mp hi; tauto
      | fill =>
        by_cases hi : s.ip < s.inLen
        · rw [sequence_fill hb ho hp hi] at h; tauto
        · rw [sequence_endFill hb ho hp hi] at h; have := Nat.not_lt.mp hi; tauto
    · rw [sequence_other hb ho] at h
      have := (Host.Outcome.next.inj h).symm
      tauto
  · rw [sequence_launch hb] at h
    have := (Host.Outcome.next.inj h).symm
    tauto

end Sequence

/-! ## The size steps and the fetch -/

theorem encodedSizeStep_next {s t : State} (h : encodedSizeStep s = .next t) :
    ∃ g, group s.inByte s.inLen s.ip = some g ∧ t = s.chargeSize (groupSize g) (s.ip + g.2) := by
  unfold encodedSizeStep at h
  split at h
  · cases h
  · rename_i g hg
    exact ⟨g, hg, (Host.Outcome.next.inj h).symm⟩

theorem decodedSizeStep_next {s t : State} (h : decodedSizeStep s = .next t) :
    ∃ hd, s.inByte s.ip = some hd ∧ t = s.chargeSize (count hd) (min (s.ip + packetSize hd) s.inLen) := by
  unfold decodedSizeStep at h
  split at h
  · cases h
  · rename_i hd hh
    exact ⟨hd, hh, (Host.Outcome.next.inj h).symm⟩

theorem encoderFillStep_next {s t : State} (h : encoderFillStep s = .next t) :
    ∃ g bytes, group s.inByte s.inLen s.ip = some g ∧ groupBytes s.inByte s.ip g = some bytes ∧
      s.wp + bytes.length ≤ s.outCap ∧ t = { s with
        outMem := s.outMem.writeBytes s.wp bytes, wp := s.wp + bytes.length, ip := s.ip + g.2 } := by
  unfold encoderFillStep at h
  split at h
  · cases h
  · rename_i g hg
    split at h
    · cases h
    · rename_i bytes hb
      obtain ⟨h1, h2⟩ := emit_next h
      exact ⟨g, bytes, hg, hb, h1, h2⟩

/-- A whole packet at the cursor is fetched. -/
theorem fetchPacket_whole {s : State} {h : Byte} {bytes : List Byte} {i : Instr} (hh : s.inByte s.ip = some h)
    (hfit : s.ip + packetSize h ≤ s.inLen) (hb : readBytes s.inByte s.ip (packetSize h) = some bytes)
    (hd : decodePacket bytes = .ok (i, [])) : s.fetchPacket = .packet i := by
  simp [State.fetchPacket, hh, Nat.not_lt.mpr hfit, hb, hd]

/-- A packet cut short is found by its header alone. -/
theorem fetchPacket_cut {s : State} {h : Byte} (hh : s.inByte s.ip = some h) (hcut : s.inLen < s.ip + packetSize h) :
    s.fetchPacket = .truncated := by simp [State.fetchPacket, hh, hcut]

/-- The bytes of a packet decode to it, with nothing left. -/
theorem decodePacket_exact {h : Byte} {bytes : List Byte} (h0 : bytes[0]? = some h)
    (hlen : bytes.length = packetSize h) :
    (isRun h = true ∧ ∃ v, bytes = [h, v] ∧ decodePacket bytes = .ok (.run (count h) v, [])) ∨
    (isRun h = false ∧ ∃ payload, bytes = h :: payload ∧ payload.length = count h ∧
      decodePacket bytes = .ok (.lit payload, [])) := by
  cases bytes with
  | nil => simp at h0
  | cons hd tl =>
    obtain rfl : hd = h := by simpa using h0
    cases hr : isRun hd with
    | true =>
      left
      rw [packetSize_run hr] at hlen
      obtain ⟨v, rfl⟩ : ∃ v, tl = [v] := List.length_eq_one_iff.mp (by simpa using hlen)
      exact ⟨rfl, v, rfl, decodePacket_run hr⟩
    | false =>
      right
      rw [packetSize_lit hr] at hlen
      have hl : tl.length = count hd := by simp at hlen; omega
      refine ⟨rfl, tl, rfl, hl, ?_⟩
      rw [decodePacket_lit hr (by omega), ← hl]
      simp

/-- Everything the fetch can find: no header written; a packet cut short; a byte of the packet not written; or a
whole packet, with the bytes it was read from. -/
theorem fetchPacket_cases (s : State) :
    (s.inByte s.ip = none ∧ s.fetchPacket = .unwritten) ∨
    ∃ h, s.inByte s.ip = some h ∧
      ((s.inLen < s.ip + packetSize h ∧ s.fetchPacket = .truncated) ∨
       (s.ip + packetSize h ≤ s.inLen ∧
         ((readBytes s.inByte s.ip (packetSize h) = none ∧ s.fetchPacket = .unwritten) ∨
          (isRun h = true ∧ ∃ v, s.inByte (s.ip + 1) = some v ∧ s.fetchPacket = .packet (.run (count h) v)) ∨
          (isRun h = false ∧ ∃ payload, readBytes s.inByte (s.ip + 1) (count h) = some payload ∧
            payload.length = count h ∧ s.fetchPacket = .packet (.lit payload))))) := by
  cases hh : s.inByte s.ip with
  | none => exact .inl ⟨rfl, by simp [State.fetchPacket, hh]⟩
  | some h =>
    refine .inr ⟨h, rfl, ?_⟩
    by_cases hcut : s.inLen < s.ip + packetSize h
    · exact .inl ⟨hcut, fetchPacket_cut hh hcut⟩
    · have hfit : s.ip + packetSize h ≤ s.inLen := by omega
      refine .inr ⟨hfit, ?_⟩
      cases hb : readBytes s.inByte s.ip (packetSize h) with
      | none => exact .inl ⟨rfl, by simp [State.fetchPacket, hh, hcut, hb]⟩
      | some bytes =>
        right
        obtain ⟨hlen, hall⟩ := readBytes_eq_some.mp hb
        have h2 := two_le_packetSize h
        have h0 : bytes[0]? = some h := by rw [← hall 0 (by omega), Nat.add_zero, hh]
        rcases decodePacket_exact h0 hlen with ⟨hr, v, hbv, hd⟩ | ⟨hr, payload, hbp, hpl, hd⟩
        · left
          refine ⟨hr, v, ?_, fetchPacket_whole hh hfit hb hd⟩
          rw [hall 1 (by omega), hbv]
          rfl
        · right
          refine ⟨hr, payload, ?_, hpl, fetchPacket_whole hh hfit hb hd⟩
          refine readBytes_eq_some.mpr ⟨hpl, fun k hk => ?_⟩
          rw [packetSize_lit hr] at hall
          have := hall (k + 1) (by omega)
          rw [hbp, List.getElem?_cons_succ] at this
          rw [← this]
          congr 1
          omega

/-- Everything the decoder fill step can answer with a next state: an exception for a packet cut short, or the bytes
of the packet's expansion written at `wp`. -/
theorem decoderFillStep_next {s t : State} (h : decoderFillStep s = .next t) :
    ∃ hd, s.inByte s.ip = some hd ∧
      ((s.inLen < s.ip + packetSize hd ∧ t = s.raise .malformedStream) ∨
       (s.ip + packetSize hd ≤ s.inLen ∧ ∃ bytes : List Byte, bytes.length = count hd ∧
         (isRun hd = true → ∃ v, s.inByte (s.ip + 1) = some v ∧ bytes = List.replicate (count hd) v) ∧
         (isRun hd = false → readBytes s.inByte (s.ip + 1) (count hd) = some bytes) ∧
         s.wp + bytes.length ≤ s.outCap ∧ t = { s with
           outMem := s.outMem.writeBytes s.wp bytes, wp := s.wp + bytes.length, ip := s.ip + packetSize hd })) := by
  rcases fetchPacket_cases s with ⟨-, hf⟩ | ⟨hd, hh, ⟨hcut, hf⟩ | ⟨hfit, ⟨-, hf⟩ | ⟨hr, v, hv, hf⟩ |
    ⟨hr, payload, hp, hpl, hf⟩⟩⟩
  · simp [decoderFillStep, hf] at h
  · refine ⟨hd, hh, .inl ⟨hcut, ?_⟩⟩
    simp only [decoderFillStep, hf] at h
    exact (Host.Outcome.next.inj h).symm
  · simp [decoderFillStep, hf] at h
  · refine ⟨hd, hh, .inr ⟨hfit, List.replicate (count hd) v, by simp, fun _ => ⟨v, hv, rfl⟩, by simp [hr], ?_⟩⟩
    rw [packetSize_run hr] at hfit ⊢
    simp only [decoderFillStep, hf, execRun, State.payloadPastEnd, Config.runPacketBytes] at h
    rw [if_neg (by omega)] at h
    exact emit_next h
  · refine ⟨hd, hh, .inr ⟨hfit, payload, hpl, by simp [hr], fun _ => hp, ?_⟩⟩
    rw [packetSize_lit hr] at hfit ⊢
    simp only [decoderFillStep, hf, execLit, State.payloadPastEnd, Config.headerBytes, hpl] at h
    rw [if_neg (by omega)] at h
    exact emit_next h

/-! ## The step -/

theorem step_noMove {s : State} (h : s.host = []) : step s = s.engineStep := by simp [step, h]

theorem step_move {s : State} {m : HostMove} {rest : List HostMove} (h : s.host = m :: rest) :
    step s = { s with host := rest }.hostMove m := by simp [step, h]

theorem engineStep_busy {s : State} (h : s.status = .busy) : s.engineStep = exec (decodeCommand s.op) s := by
  simp [State.engineStep, h]

theorem engineStep_notBusy {s : State} (h : s.status ≠ .busy) : s.engineStep = .next s := by
  simp [State.engineStep, h]

/-- The four values of the register `OP`. -/
theorem op_cases (code : CommandCode) : code = 0 ∨ code = 1 ∨ code = 2 ∨ code = 3 := by
  have : ∀ code : CommandCode, code = 0 ∨ code = 1 ∨ code = 2 ∨ code = 3 := by decide
  exact this code

@[simp] theorem decodeCommand_zero : decodeCommand 0 = .enc := rfl
@[simp] theorem decodeCommand_one : decodeCommand 1 = .dec := rfl
@[simp] theorem decodeCommand_two : decodeCommand 2 = .pes := rfl
@[simp] theorem decodeCommand_three : decodeCommand 3 = .pds := rfl

/-! ## The commands as rows of the sequencing table -/

theorem exec_enc (s : State) : exec .enc s =
    sequence 0 encodedSizeStep (fun s => .next s.endSizePass) encoderFillStep (fun s => .next s.endFillPass) s := rfl

theorem exec_dec (s : State) : exec .dec s =
    sequence 1 decodedSizeStep (fun s => .next s.endSizePass) decoderFillStep (fun s => .next s.endFillPass) s := rfl

theorem exec_pes (s : State) : exec .pes s =
    sequence 2 encodedSizeStep (fun s => .next s.endPrediction) noStep noStep s := rfl

theorem exec_pds (s : State) : exec .pds s =
    sequence 3 decodedSizeStep (fun s => .next s.endPrediction) noStep noStep s := rfl

end Sys2Proof.Machine
end

