-- ==== Sys2Proof/Laws/PerInstr.lean ====
section
/-! SUPPORT. One law per instruction: the shape of its encoding, against the fixed bits and the length of its row of
spec/opcode_table.json. -/

namespace Sys2Proof.Laws.EncodingShape

open Sys2Proof.Machine (isPacket)

/-- A well-formed packet's bytes are a header and the rest, as many bytes together as the header says, the header's
bit 7 set for a run and clear for a literal, and its count the instruction's length; a command's code is the value of
`OP` that selects it. -/
def Statement (i : Instr) : Prop :=
  i.wellFormed = true →
    match i, encode i with
    | .run c _, .stream (h :: rest) => isRun h = true ∧ count h = c ∧ rest.length + 1 = packetSize h
    | .lit payload, .stream (h :: rest) => isRun h = false ∧ count h = payload.length ∧ rest.length + 1 = packetSize h
    | .run _ _, _ => False
    | .lit _, _ => False
    | j, .opRegister code => isPacket j = false ∧ decodeCommand code = j
    | _, .stream _ => False

theorem run (c : Nat) (v : Byte) : Statement (.run c v) := by
  intro hw
  simp only [Instr.wellFormed, Bool.and_eq_true, decide_eq_true_eq] at hw
  obtain ⟨h1, h2⟩ := runHeaderBits_fields c hw.1 hw.2
  exact ⟨h1, h2, by rw [packetSize_run h1]; rfl⟩

theorem lit (payload : List Byte) : Statement (.lit payload) := by
  intro hw
  simp only [Instr.wellFormed, Bool.and_eq_true, decide_eq_true_eq] at hw
  obtain ⟨h1, h2⟩ := literalHeaderBits_fields payload.length hw.1 hw.2
  exact ⟨h1, h2, by rw [packetSize_lit h1, h2, Nat.add_comm]⟩

theorem enc : Statement .enc := fun _ => ⟨rfl, rfl⟩

theorem dec : Statement .dec := fun _ => ⟨rfl, rfl⟩

theorem pes : Statement .pes := fun _ => ⟨rfl, rfl⟩

theorem pds : Statement .pds := fun _ => ⟨rfl, rfl⟩

end Sys2Proof.Laws.EncodingShape
end

