-- ==== Sys2Proof/Tests/Slice0.lean ====
section
/-! SUPPORT. The model's own tests. Every expected value is one of spec/95_test_vectors.md's or is worked out by hand from
the tables of spec/30_encoding.md; then, for each statement with hypotheses, a witness that meets them. -/

namespace Sys2Proof.Machine.Tests

/-! ## Small states -/

/-- No operation running, `IN` holding `input`. -/
def ready (input : List Byte) (cap : Nat) : State :=
  { State.reset with inMem := Memory.writeBytes [] 0 input, inLen := input.length, outCap := cap }

/-- An operation of `code` in a phase, with its cursors. -/
def running (code : CommandCode) (phase : Phase) (input : List Byte) (cap ip acc wp : Nat) : State :=
  { ready input cap with op := code, status := .busy, phase := phase, ip := ip, acc := acc, wp := wp }

/-- The stream of the vector P1. -/
def streamP1 : List Byte := [0x83, 0x07, 0x82, 0x09, 0x03, 0x01, 0x02, 0x03]

/-- The raw data of the vector P2. -/
def rawP2 : List Byte := [0x61, 0x62, 0x62, 0x63, 0x64, 0x64]

/-- 128 bytes, none equal to its successor. -/
def distinct128 : List Byte := (List.range 128).map (BitVec.ofNat 8)

/-! ## Well-formedness: each check refuses an ill-formed term -/

theorem test_run_of_0_refused : (Instr.run 0 7).wellFormed = false := by decide
theorem test_run_of_129_refused : (Instr.run 129 7).wellFormed = false := by decide
theorem test_literal_of_0_refused : (Instr.lit []).wellFormed = false := by decide
theorem test_literal_of_129_refused : (Instr.lit (List.replicate 129 0)).wellFormed = false := by decide +kernel

/-! ## Decoding: words written out from R43, R44 and R12 -/

theorem test_decode_run : decode (.stream [0b10000011, 0b00000111]) = .ok (.run 3 7, []) := by rfl
theorem test_decode_run_0_means_128 : decode (.stream [0b10000000, 0b10101010]) = .ok (.run 128 0xAA, []) := by rfl
theorem test_decode_lit : decode (.stream [0b00000010, 0b10000000, 0b10000000]) = .ok (.lit [0x80, 0x80], []) := by rfl
theorem test_decode_lit_0_means_128 :
    decodeStream 1 (0x00 :: distinct128) = some [.lit distinct128] := by decide +kernel
theorem test_decode_enc : decode (.opRegister 0b00) = .ok (.enc, []) := by rfl
theorem test_decode_dec : decode (.opRegister 0b01) = .ok (.dec, []) := by rfl
theorem test_decode_pes : decode (.opRegister 0b10) = .ok (.pes, []) := by rfl
theorem test_decode_pds : decode (.opRegister 0b11) = .ok (.pds, []) := by rfl
theorem test_decode_rejects_missing_value : decode (.stream [0x82]) = .error .missingValue := by rfl
theorem test_decode_rejects_missing_payload :
    decode (.stream [0x05, 0x01, 0x02, 0x03]) = .error (.missingPayload 5 3) := by rfl

/-! ## The host's numbering, and the placing of an instruction -/

theorem test_tableWord_run : decodeTableWord 16 0x0783 = some (.run 3 7) := by decide
theorem test_tableWord_lit : decodeTableWord 8 0x05 = some (.lit [0, 0, 0, 0, 0]) := by decide
theorem test_tableWord_pds : decodeTableWord 8 3 = some .pds := by decide

/-- The placed `RUN 3, 07` writes three bytes in the next step. -/
theorem test_placed_run_runs :
    step (State.reset.withFetchWord 16 0x0783) =
      .next { running 1 .fill [0x83, 0x07] 3 2 3 3 with outMem := [(0, 7), (1, 7), (2, 7)] } := by rfl

/-- The placed `PDS` begins its operation in the next step. -/
theorem test_placed_pds_runs : step (State.reset.withFetchWord 8 3) = .next (running 3 .size [] 0 0 0 0) := by rfl

/-! ## Instructions, one step each (the vectors P1, P2 and P4) -/

/-- P1 step 5. -/
theorem test_run_copies :
    exec (.run 3 7) (running 1 .fill streamP1 8 0 8 0) =
      .next { running 1 .fill streamP1 8 2 8 3 with outMem := [(0, 7), (1, 7), (2, 7)] } := by rfl

/-- P4 step 5: the header `85` is the last byte of the stream. -/
theorem test_run_cut_short_raises :
    exec .dec (running 1 .fill [0x03, 0x01, 0x02, 0x03, 0x85] 8 4 8 3) =
      .next ((running 1 .fill [0x03, 0x01, 0x02, 0x03, 0x85] 8 4 8 3).raise .malformedStream) := by rfl

/-- P1 step 7. -/
theorem test_lit_copies :
    exec (.lit [1, 2, 3]) (running 1 .fill streamP1 8 4 8 5) =
      .next { running 1 .fill streamP1 8 8 8 8 with outMem := [(5, 1), (6, 2), (7, 3)] } := by rfl

/-- V4, `05 01 02 03`: the literal claims 5 bytes and 3 remain. -/
theorem test_lit_cut_short_raises :
    exec .dec (running 1 .fill [0x05, 0x01, 0x02, 0x03] 5 0 5 0) =
      .next ((running 1 .fill [0x05, 0x01, 0x02, 0x03] 5 0 5 0).raise .malformedStream) := by rfl

/-- P2, command 2, step 7: `RUN 2, 62` is emitted. -/
theorem test_enc_emits_run :
    exec .enc { running 0 .fill rawP2 8 1 8 2 with outMem := [(0, 0x01), (1, 0x61)] } =
      .next { running 0 .fill rawP2 8 3 8 4 with outMem := [(0, 0x01), (1, 0x61), (2, 0x82), (3, 0x62)] } := by rfl

/-- P2, command 2, step 6: `LIT 1; 61` is emitted. -/
theorem test_enc_emits_lit :
    exec .enc (running 0 .fill rawP2 8 0 8 0) =
      .next { running 0 .fill rawP2 8 1 8 2 with outMem := [(0, 0x01), (1, 0x61)] } := by rfl

/-- P1 step 1. -/
theorem test_dec_size_step :
    exec .dec (running 1 .size streamP1 8 0 0 0) = .next (running 1 .size streamP1 8 2 3 0) := by rfl

/-- P4 step 3 with `OUT_CAP` 7: 8 exceeds 7. -/
theorem test_dec_allocation_fails :
    exec .dec (running 1 .size [0x03, 0x01, 0x02, 0x03, 0x85] 7 5 8 0) =
      .next ((running 1 .size [0x03, 0x01, 0x02, 0x03, 0x85] 7 5 8 0).raise .allocationFailure) := by rfl

/-- P2, command 1, step 2: `group` is `(RUN, 2)`. -/
theorem test_pes_size_step :
    exec .pes (running 2 .size rawP2 0 1 2 0) = .next (running 2 .size rawP2 0 3 4 0) := by rfl

/-- P2, command 1, step 5. -/
theorem test_pes_ends :
    exec .pes (running 2 .size rawP2 0 6 8 0) =
      .next { running 2 .idle rawP2 0 6 8 0 with status := .done, result := 8 } := by rfl

/-- P4 step 2 (the same for `PDS`): the clamp takes effect, `IN[5]` is not read. -/
theorem test_pds_clamps :
    exec .pds (running 3 .size [0x03, 0x01, 0x02, 0x03, 0x85] 7 4 3 0) =
      .next (running 3 .size [0x03, 0x01, 0x02, 0x03, 0x85] 7 5 8 0) := by rfl

/-- P2, command 3, step 5. -/
theorem test_pds_ends :
    exec .pds (running 3 .size [0x01, 0x61, 0x82, 0x62, 0x01, 0x63, 0x82, 0x64] 0 8 6 0) =
      .next { running 3 .idle [0x01, 0x61, 0x82, 0x62, 0x01, 0x63, 0x82, 0x64] 0 8 6 0 with
        status := .done, result := 6 } := by rfl

/-! ## Witnesses: the Packet Model and the scanner -/

theorem witness_HeaderFieldsOfEveryByte :
    0 < 128 ∧ packetSize 0x00 = 129 ∧ packetSize 0x80 = 2 ∧ 127 < 128 ∧ packetSize 0x7F = 128 ∧
      count 0xFF = 127 := by decide

theorem witness_HeaderGeneratorHasItsDomain :
    runHeader 1 = none ∧ runHeader 2 = some 0x82 ∧ runHeader 128 = some 0x80 ∧ runHeader 129 = none ∧
    literalHeader 0 = none ∧ literalHeader 1 = some 0x01 ∧ literalHeader 128 = some 0x00 ∧
    literalHeader 129 = none := by decide

theorem witness_HeaderGeneratorAndParserAreInverse :
    (2 ≤ 2 ∧ 2 ≤ 128) ∧ (1 ≤ 128 ∧ 128 ≤ 128) ∧ (isRun 0x82 = true ∧ 2 ≤ count 0x82) ∧
      isRun 0x00 = false := by decide

theorem witness_DecodeOfEncodeIsTheInstruction :
    (Instr.run 1 0).wellFormed = true ∧ (Instr.run 128 0xFF).wellFormed = true ∧ (Instr.lit [5]).wellFormed = true ∧
      (Instr.lit distinct128).wellFormed = true ∧ Instr.pds.wellFormed = true := by decide +kernel

theorem witness_ReadPacketStoodInTheStream : decodePacket [0x81, 0x55, 0x09] = .ok (.run 1 0x55, [0x09]) := by rfl

theorem witness_StreamOfPacketsParsesBack :
    ∀ p ∈ [Instr.run 3 7, .run 2 9, .lit [1, 2, 3]], isPacket p = true ∧ p.wellFormed = true := by decide

theorem witness_OnlyTruncationIsRejected :
    packetSize 0x80 ≤ [(7 : Byte)].length + 1 ∧ ([] : List Byte).length + 1 < packetSize 0x80 ∧
      packetSize 0x01 ≤ [(7 : Byte)].length + 1 ∧ [(7 : Byte)].length + 1 < packetSize 0x02 := by decide

theorem witness_RunScanFindsTheGreatestRun :
    (∀ j, j < 3 → Memory.read [(0, 7), (1, 7), (2, 9), (3, 9)] j = [7, 7, (9 : Byte)][j]?) ∧
      0 < [7, 7, (9 : Byte)].length ∧ 2 < [7, 7, (9 : Byte)].length ∧
      runScan (Memory.read [(0, 7), (1, 7), (2, 9), (3, 9)]) 3 2 = some 1 := by decide

theorem witness_LiteralScanStopsBeforeARun :
    (0 < [1, 2, (2 : Byte)].length ∧ runScan (bytesOf [1, 2, 2]) 3 0 = some 1 ∧
      litScan (bytesOf [1, 2, 2]) 3 0 = some 1) ∧
    (runScan (bytesOf [0x41]) 1 0 = some 1 ∧ litScan (bytesOf [0x41]) 1 0 = some 1) ∧
    (runScan (bytesOf (distinct128 ++ [0x80])) 129 0 = some 1 ∧
      litScan (bytesOf (distinct128 ++ [0x80])) 129 0 = some 128) := by decide +kernel

theorem witness_GroupIsARunElseALiteral :
    group (bytesOf [5, 5]) 2 0 = some (.run, 2) ∧ group (bytesOf [5, 6]) 2 0 = some (.lit, 2) ∧
      group (bytesOf [5, 6]) 2 1 = some (.lit, 1) := by decide

/-! ## Witnesses: the four functions -/

theorem witness_DecodedLengthIsPredicted : ValidStream [0x81, 0x55] ∧ ValidStream [] := by decide

theorem witness_SizesAreBounded :
    (0x01 : Byte) ≠ 0x02 ∧ ValidStream [0x80, 0xAA] ∧ dec [0x80, 0xAA] = some (List.replicate 128 0xAA) := by
  decide +kernel

theorem witness_RunsAreCappedAt128 :
    [].head? ≠ some (0xAA : Byte) ∧ [(2 : Byte)].head? ≠ some 0xAA ∧
      128 % 128 = 0 ∧ 2 ≤ 130 % 128 ∧ 129 % 128 = 1 := by decide

theorem witness_Length128IsStoredAsZero :
    distinct128.length = 128 ∧ List.IsChain (· ≠ ·) distinct128 := by decide +kernel

theorem witness_ValidStreamsConcatenate : dec [0x82, 0x07] = some [7, 7] ∧ dec [0x01, 0x07] = some [7] := by decide

theorem witness_CanonicalStreamsAreTheFiveConditions :
    ValidStream [0x83, 7, 0x01, 1] ∧
    (∀ p ∈ [Instr.run 3 7, .lit [1]], isPacket p = true ∧ p.wellFormed = true) ∧
      CanonicalStream (encodeStream [.run 3 7, .lit [1]]) ∧
    (∀ p ∈ [Instr.run 2 7, .run 2 7], isPacket p = true ∧ p.wellFormed = true) ∧
      ¬ CanonicalStream (encodeStream [.run 2 7, .run 2 7]) := by decide

/-! ## Witnesses: steps -/

theorem witness_StepRunsTheSelectedCommand :
    ((running 0 .size rawP2 8 0 0 0).host = [] ∧ (running 0 .size rawP2 8 0 0 0).status = .busy) ∧
    (State.reset.host = [] ∧ State.reset.status ≠ .busy) ∧
    ({ running 0 .size rawP2 8 0 0 0 with host := [.wait] }.host = .wait :: []) ∧
    ({ ready rawP2 8 with host := [.wait] }.host = .wait :: []) ∧
    ({ ready rawP2 8 with host := [.start] }.host = .start :: [] ∧ (ready rawP2 8).status ≠ .busy) := by decide

theorem witness_DecoderStepRunsThePacketAtTheCursor :
    (running 1 .fill streamP1 8 4 8 5).host = [] ∧ (running 1 .fill streamP1 8 4 8 5).status = .busy ∧
    (running 1 .fill streamP1 8 4 8 5).phase = .fill ∧ (running 1 .fill streamP1 8 4 8 5).op = 1 ∧
    (∀ k, k < [3, 1, 2, (3 : Byte)].length →
      (running 1 .fill streamP1 8 4 8 5).inByte (4 + k) = [3, 1, 2, (3 : Byte)][k]?) ∧
    decodePacket [3, 1, 2, 3] = .ok (.lit [1, 2, 3], []) := ⟨rfl, rfl, rfl, rfl, by decide, rfl⟩

theorem witness_StartBeginsAnOperation :
    ({ ready rawP2 8 with host := [.start] }.host = [.start] ∧ (ready rawP2 8).status ≠ .busy) ∧
    ({ running 0 .size rawP2 8 0 0 0 with host := [.start] }.host = [.start] ∧
      (running 0 .size rawP2 8 0 0 0).status = .busy) := by decide

theorem witness_IssuedCommandsAreAcceptedWhenIdle :
    encode .enc = .opRegister 0 ∧ encode .pds = .opRegister 3 ∧ State.reset.status ≠ .busy ∧
      ((running 0 .size rawP2 8 0 0 0).status = .busy ∧ (running 0 .size rawP2 8 0 0 0).op ≠ 3) := by decide

theorem witness_EncodedSizeStepChargesOnePacket :
    ∀ code ∈ [(0 : CommandCode), 2], (running code .size rawP2 8 5 6 0).status = .busy ∧
      (running code .size rawP2 8 5 6 0).phase = .size ∧ 5 < (running code .size rawP2 8 5 6 0).inLen ∧
      (running code .size rawP2 8 5 6 0).input = some rawP2 ∧
      group (bytesOf rawP2) rawP2.length 5 = some (.lit, 1) ∧
      group (bytesOf rawP2) rawP2.length 4 = some (.run, 2) := by decide

theorem witness_DecodedSizeStepChargesOnePacket :
    ∀ code ∈ [(1 : CommandCode), 3], (running code .size [0x03, 1, 2, 3, 0x85] 8 4 3 0).status = .busy ∧
      (running code .size [0x03, 1, 2, 3, 0x85] 8 4 3 0).phase = .size ∧
      4 < (running code .size [0x03, 1, 2, 3, 0x85] 8 4 3 0).inLen ∧
      (running code .size [0x03, 1, 2, 3, 0x85] 8 4 3 0).inMem.read 4 = some 0x85 := by decide

theorem witness_EndOfTheSizePass :
    encode .enc = .opRegister 0 ∧ encode .dec = .opRegister 1 ∧ encode .pes = .opRegister 2 ∧ encode .pds = .opRegister 3 ∧
    ∀ code ∈ [(0 : CommandCode), 1, 2, 3], (running code .size rawP2 8 6 8 0).status = .busy ∧
      (running code .size rawP2 8 6 8 0).phase = .size ∧
      (running code .size rawP2 8 6 8 0).ip = (running code .size rawP2 8 6 8 0).inLen ∧
      (running code .size rawP2 8 6 8 0).acc ≤ (running code .size rawP2 8 6 8 0).outCap ∧
      (running code .size rawP2 7 6 8 0).outCap < (running code .size rawP2 7 6 8 0).acc := by decide

/-- At the end of a size pass with the invariant: `PES` of the one byte `41`. -/
theorem inv_end_of_size_encoded : (running 2 .size [0x41] 0 1 2 0).Inv where
  in_wf := by decide
  out_wf := by decide
  busy_iff := by decide
  ip_le := by decide
  size_bound := by decide
  size_exact := by
    rintro - x ⟨hlen, -⟩
    obtain ⟨a, rfl⟩ : ∃ a, x = [a] := List.length_eq_one_iff.mp hlen
    rfl
  fill_op := by decide
  fill_bound := by decide
  fill_exact := fun h => absurd h (by decide)

/-- At the end of a size pass with the invariant: `PDS` of `82 07`. -/
theorem inv_end_of_size_decoded : (running 3 .size [0x82, 0x07] 0 2 2 0).Inv where
  in_wf := by decide
  out_wf := by decide
  busy_iff := by decide
  ip_le := by decide
  size_bound := by decide
  size_exact := by
    rintro - x ⟨hlen, hx⟩
    obtain ⟨a, b, rfl⟩ : ∃ a b, x = [a, b] := List.length_eq_two.mp hlen
    have ha := hx 0 0x82 (by decide)
    obtain rfl : a = 0x82 := by simpa using ha
    rfl
  fill_op := by decide
  fill_bound := by decide
  fill_exact := fun h => absurd h (by decide)

/-- The second clauses of EncodedSizeStepChargesOnePacket, DecodedSizeStepChargesOnePacket and EndOfTheSizePass. -/
theorem witness_EndOfTheSizePass_prediction :
    ((running 2 .size [0x41] 0 1 2 0).Inv ∧ (running 2 .size [0x41] 0 1 2 0).input = some [0x41]) ∧
    ((running 3 .size [0x82, 0x07] 0 2 2 0).Inv ∧ (running 3 .size [0x82, 0x07] 0 2 2 0).input = some [0x82, 0x07]) :=
  ⟨⟨inv_end_of_size_encoded, rfl⟩, ⟨inv_end_of_size_decoded, rfl⟩⟩

theorem witness_EncoderFillStepEmitsOnePacket :
    (running 0 .fill rawP2 8 4 8 6).outMem.wf ∧ (running 0 .fill rawP2 8 4 8 6).status = .busy ∧
    (running 0 .fill rawP2 8 4 8 6).phase = .fill ∧ (running 0 .fill rawP2 8 4 8 6).op = 0 ∧
    4 < (running 0 .fill rawP2 8 4 8 6).inLen ∧ (running 0 .fill rawP2 8 4 8 6).input = some rawP2 ∧
    group (bytesOf rawP2) rawP2.length 4 = some (.run, 2) ∧ 6 + 2 ≤ (running 0 .fill rawP2 8 4 8 6).outCap ∧
    group (bytesOf rawP2) rawP2.length 3 = some (.lit, 1) ∧ 4 + (1 + 1) ≤ (running 0 .fill rawP2 8 3 8 4).outCap := by
  decide

theorem witness_RunPacketExpands :
    (running 1 .fill streamP1 8 2 8 6).outMem.wf ∧ 2 + 1 < (running 1 .fill streamP1 8 2 8 6).inLen ∧
      6 + 2 ≤ (running 1 .fill streamP1 8 2 8 6).outCap ∧
      (running 1 .fill [0x82] 2 0 2 0).inLen ≤ (running 1 .fill [0x82] 2 0 2 0).ip + 1 ∧
      ((running 1 .fill streamP1 8 2 8 6).inByte 2 = some 0x82 ∧ isRun 0x82 = true ∧ count 0x82 = 2 ∧
        (running 1 .fill streamP1 8 2 8 6).inByte 3 = some 9) := by decide

theorem witness_LiteralPacketCopies :
    (running 1 .fill streamP1 8 4 8 5).outMem.wf ∧
      4 + 1 + [1, 2, (3 : Byte)].length ≤ (running 1 .fill streamP1 8 4 8 5).inLen ∧
      5 + [1, 2, (3 : Byte)].length ≤ (running 1 .fill streamP1 8 4 8 5).outCap ∧
      (running 1 .fill [0x02, 0x05] 2 0 2 0).inLen < 0 + 1 + [5, (6 : Byte)].length ∧
      ((running 1 .fill streamP1 8 4 8 5).inByte 4 = some 3 ∧ isRun 3 = false ∧ count 3 = [1, 2, (3 : Byte)].length ∧
        ∀ k, k < 3 → (running 1 .fill streamP1 8 4 8 5).inByte (4 + 1 + k) = [1, 2, (3 : Byte)][k]?) := by decide

theorem witness_DecoderFillStepMultiplexes :
    (running 1 .fill streamP1 8 4 8 5).outMem.wf ∧ (running 1 .fill streamP1 8 4 8 5).status = .busy ∧
    (running 1 .fill streamP1 8 4 8 5).phase = .fill ∧ (running 1 .fill streamP1 8 4 8 5).op = 1 ∧
    (running 1 .fill streamP1 8 4 8 5).input = some streamP1 ∧
    (streamP1[4]? = some 0x03 ∧ 4 + packetSize 0x03 ≤ (running 1 .fill streamP1 8 4 8 5).inLen ∧
      5 + count 0x03 ≤ (running 1 .fill streamP1 8 4 8 5).outCap) ∧
    (streamP1[0]? = some 0x83 ∧ 0 + packetSize 0x83 ≤ (running 1 .fill streamP1 8 0 8 0).inLen ∧
      0 + count 0x83 ≤ (running 1 .fill streamP1 8 0 8 0).outCap) := by decide

theorem witness_MalformedStreamExactlyWhenCutShort :
    ∀ s ∈ [running 1 .fill [0x82] 2 0 2 0, running 1 .fill [0x82, 7] 2 0 2 0, running 1 .fill [0x02, 5] 2 0 2 0,
        running 1 .fill [0x02, 5, 6] 2 0 2 0],
      s.status = .busy ∧ s.phase = .fill ∧ s.op = 1 ∧ s.ip < s.inLen ∧ (s.inMem.read s.ip).isSome = true := by decide

/-- At the end of a fill pass with the invariant: `ENC` of the one byte `41`. -/
theorem inv_end_of_fill_encoder : (running 0 .fill [0x41] 2 1 2 2).Inv where
  in_wf := by decide
  out_wf := by decide
  busy_iff := by decide
  ip_le := by decide
  size_bound := by decide
  size_exact := fun h => absurd h (by decide)
  fill_op := by decide
  fill_bound := by decide
  fill_exact := by
    rintro - x ⟨hlen, -⟩
    obtain ⟨a, rfl⟩ : ∃ a, x = [a] := List.length_eq_one_iff.mp hlen
    rfl

/-- At the end of a fill pass with the invariant: `DEC` of `82 07`. -/
theorem inv_end_of_fill_decoder : (running 1 .fill [0x82, 0x07] 2 2 2 2).Inv where
  in_wf := by decide
  out_wf := by decide
  busy_iff := by decide
  ip_le := by decide
  size_bound := by decide
  size_exact := fun h => absurd h (by decide)
  fill_op := by decide
  fill_bound := by decide
  fill_exact := by
    rintro - x ⟨hlen, -⟩
    obtain ⟨a, b, rfl⟩ : ∃ a b, x = [a, b] := List.length_eq_two.mp hlen
    rfl

/-- The second clauses of EncodedLengthIsPredicted, DecodedLengthIsPredicted and FillPassEndsWithTheLength. -/
theorem witness_FillPassEndsWithTheLength_prediction :
    (running 0 .fill [0x41] 2 1 2 2).Inv ∧ (running 1 .fill [0x82, 0x07] 2 2 2 2).Inv :=
  ⟨inv_end_of_fill_encoder, inv_end_of_fill_decoder⟩

theorem witness_FillPassEndsWithTheLength :
    encode .enc = .opRegister 0 ∧ encode .dec = .opRegister 1 ∧
    ∀ code ∈ [(0 : CommandCode), 1], (running code .fill rawP2 8 6 8 8).status = .busy ∧
      (running code .fill rawP2 8 6 8 8).phase = .fill ∧
      (running code .fill rawP2 8 6 8 8).ip = (running code .fill rawP2 8 6 8 8).inLen := by decide

theorem witness_ExceptionsAreRaisedOnlyWhereListed :
    (∃ t, (running 1 .fill [0x82] 2 0 2 0).status = .busy ∧ exec .dec (running 1 .fill [0x82] 2 0 2 0) = .next t ∧
      t.status = .errMalformed) ∧
    ∃ t, (running 0 .size rawP2 7 6 8 0).status = .busy ∧ exec .enc (running 0 .size rawP2 7 6 8 0) = .next t ∧
      t.status = .errAlloc := ⟨⟨_, rfl, rfl, rfl⟩, ⟨_, rfl, rfl, rfl⟩⟩

theorem witness_StopsAreByName :
    (∀ code ∈ [(0 : CommandCode), 1, 2, 3], ∀ phase ∈ [Phase.size, .fill],
      { running code phase [5, 5] 4 0 4 0 with inMem := [] }.status = .busy ∧
      0 + 1 < { running code phase [5, 5] 4 0 4 0 with inMem := [] }.inLen ∧
      { running code phase [5, 5] 4 0 4 0 with inMem := [] }.inMem.read 0 = none) ∧
    (2 + 1 < (running 1 .fill streamP1 7 2 8 6).inLen ∧ (running 1 .fill streamP1 7 2 8 6).outCap < 6 + 2) ∧
    (4 + 1 + [1, 2, (3 : Byte)].length ≤ (running 1 .fill streamP1 7 4 8 5).inLen ∧
      (running 1 .fill streamP1 7 4 8 5).outCap < 5 + [1, 2, (3 : Byte)].length) ∧
    (encode .enc = .opRegister (running 0 .idle [] 0 0 0 0).op ∧ (running 0 .idle [] 0 0 0 0).phase = .idle) ∧
    (encode .pes = .opRegister (running 2 .fill [] 0 0 0 0).op ∧ (running 2 .fill [] 0 0 0 0).phase = .fill) := by
  decide

/-! ## Witnesses: the host and the whole machine -/

theorem witness_IdleEngineKeepsAllState :
    { ready rawP2 8 with status := .errAlloc }.status ≠ .busy ∧ { ready rawP2 8 with status := .errAlloc }.host = [] := by
  decide

theorem witness_ResetAbandonsTheOperation :
    { running 0 .fill rawP2 8 1 8 2 with host := [.reset] }.host = .reset :: [] := by rfl

theorem witness_HostWritesReachTheirTargets :
    (ready rawP2 8).status ≠ .busy ∧ (ready rawP2 8).inMem.wf ∧ (ready rawP2 8).outMem.wf ∧
    ∀ m ∈ [HostMove.writeIn 0 9, .writeOut 5 9, .writeOp 3, .writeInLen 0, .writeOutCap 1],
      { ready rawP2 8 with host := [m] }.host = m :: [] := by decide

theorem witness_ForbiddenHostAccessIsRefused :
    { running 0 .size rawP2 8 0 0 0 with host := [.writeIn 0 9] }.host = .writeIn 0 9 :: [] ∧
      { running 0 .size rawP2 8 0 0 0 with host := [.writeIn 0 9] }.status = .busy ∧
      HostMove.writeIn 0 9 ≠ .wait ∧ HostMove.writeIn 0 9 ≠ .start ∧ HostMove.writeIn 0 9 ≠ .reset := by decide

theorem witness_HostSeesTheStatus : (running 0 .size rawP2 8 0 0 0).status = .busy := by rfl

/-- A state in the middle of a fill pass, with the invariant: `DEC` of `82 07`, nothing written yet. -/
theorem inv_running : (running 1 .fill [0x82, 0x07] 2 0 2 0).Inv where
  in_wf := by decide
  out_wf := by decide
  busy_iff := by decide
  ip_le := by decide
  size_bound := by decide
  size_exact := fun h => absurd h (by decide)
  fill_op := by decide
  fill_bound := by decide
  fill_exact := by
    rintro - x ⟨hlen, hx⟩
    obtain ⟨a, b, rfl⟩ : ∃ a b, x = [a, b] := List.length_eq_two.mp hlen
    have ha := hx 0 0x82 (by decide)
    obtain rfl : a = 0x82 := by simpa using ha
    rfl

/-- What its step answers. -/
theorem step_running : step (running 1 .fill [0x82, 0x07] 2 0 2 0) =
    .next { running 1 .fill [0x82, 0x07] 2 2 2 2 with outMem := [(0, 7), (1, 7)] } := by rfl

theorem witness_EveryStepKeepsTheInvariant : ∃ s t : State, s.Inv ∧ s.status = .busy ∧ step s = .next t :=
  ⟨_, _, inv_running, rfl, step_running⟩

theorem witness_NoRegisterWraps :
    ∃ (p : Config.Params) (s t : State), p.Legal ∧ s.Inv ∧ s.Fits p ∧ s.status = .busy ∧ step s = .next t :=
  ⟨⟨2, 3, 2⟩, _, _, by decide, inv_running, ⟨by decide, by decide, by decide, by decide, by decide, by decide, by decide, by decide, by simp [running, ready, State.reset]⟩, rfl, step_running⟩

theorem witness_EngineLeavesTheHostsSideAlone :
    (∃ t, exec .dec (running 1 .fill [0x82, 0x07] 2 0 2 0) = .next t) ∧
      (running 1 .fill [0x82, 0x07] 2 0 2 0).status = .busy ∧
    (∃ t, exec (.run 2 7) (running 1 .fill [0x82, 0x07] 2 0 2 0) = .next t) ∧ isPacket (.run 2 7) = true :=
  ⟨⟨_, step_running⟩, rfl, ⟨_, step_running⟩, rfl⟩

theorem witness_PredictorsNeverWriteOut :
    (∃ t, exec .pes (running 2 .size rawP2 0 1 2 0) = .next t) ∧
      ∃ t, exec .pds (running 3 .size [0x82, 0x07] 0 0 0 0) = .next t := ⟨⟨_, rfl⟩, ⟨_, rfl⟩⟩

theorem witness_WritesAreInOrderAndInBounds :
    ∃ s t : State, s.Inv ∧ s.host = [] ∧ s.status = .busy ∧ s.phase = .fill ∧ step s = .next t ∧
      t.status ≠ .errMalformed := ⟨_, _, inv_running, rfl, rfl, rfl, step_running, by decide⟩

theorem witness_BytesPastTheInputDoNotMatter :
    ∀ a, a < (ready [7] 2).inLen → Memory.read [(0, 7), (1, 9)] a = (ready [7] 2).inMem.read a := by decide

/-- A fill step from two contents of `OUT` that differ at the index it writes first. -/
theorem witness_OutIsNeverRead :
    ∃ t t' : State, exec .dec (running 1 .fill [0x82, 0x07] 2 0 2 0) = .next t ∧
      exec .dec { running 1 .fill [0x82, 0x07] 2 0 2 0 with outMem := [(0, 9)] } = .next t' ∧ 0 < t.wp :=
  ⟨_, _, step_running, rfl, by decide⟩

theorem witness_PacketStepsMakeProgress :
    ∃ s t : State, s.host = [] ∧ s.status = .busy ∧ s.ip < s.inLen ∧ step s = .next t :=
  ⟨_, _, rfl, rfl, by decide, step_running⟩

theorem witness_OperationsAreNeverStuck :
    ∃ s : State, s.Inv ∧ s.host = [] ∧ s.status = .busy ∧ ∃ x, s.input = some x := ⟨_, inv_running, rfl, rfl, _, rfl⟩

/-- PesOperation, PdsOperation, EncOperation, DecOperation: a launch state, with the capacity exactly enough, one short,
and a stream cut short. -/
theorem witness_PesOperation_PdsOperation_EncOperation_DecOperation :
    (ready streamP1 8).outMem.wf ∧ (ready streamP1 8).status ≠ .busy ∧ (ready streamP1 8).host = [] ∧
    (ready streamP1 8).input = some streamP1 ∧
    (pds streamP1 ≤ (ready streamP1 8).outCap ∧ dec streamP1 = some [7, 7, 7, 9, 9, 1, 2, 3]) ∧
    (ready streamP1 7).outCap < pds streamP1 ∧ (dec [0x05, 1, 2, 3] = none ∧ pds [0x05, 1, 2, 3] ≤ (ready [] 5).outCap) ∧
    pes rawP2 ≤ (ready rawP2 8).outCap ∧ (ready rawP2 7).outCap < pes rawP2 := by decide

theorem witness_EmptyInputGivesEmptyOutput :
    State.reset.status ≠ .busy ∧ State.reset.host = [] ∧ State.reset.inLen = 0 := by decide

end Sys2Proof.Machine.Tests
end

/-! # No register wraps (R6, R100, R101, R123)

A packet adds at most 128 to the predicted size for each byte of input it covers, so `acc` stays within
`128 * IN_LEN`, which `SIZE_W = LEN_W + 7` bits hold; `ip` stays within `IN_LEN`, and `wp` within `OUT_CAP`. -/

namespace Sys2Proof.Machine

/-- A group adds at most 128 to the encoded size for each byte it covers (R99). -/
theorem groupSize_le {g : Kind × Nat} (h : 1 ≤ g.2) : groupSize g ≤ 128 * g.2 := by
  obtain ⟨kind, len⟩ := g
  cases kind <;> simp only [groupSize, Config.runPacketBytes, Config.headerBytes] at h ⊢ <;> omega

/-! ## The host's moves -/

/-- An access R27 restricts has a next state only while the engine is not `BUSY` (R120). -/
theorem ifOwned_next {s u t : State} (h : s.ifOwned u = .next t) : s.status ≠ .busy ∧ t = u := by
  unfold State.ifOwned at h
  split at h
  · cases h
  · rename_i hb
    exact ⟨hb, (Host.Outcome.next.inj h).symm⟩

/-- The invariant says nothing of the host's coming moves. -/
theorem State.Inv.withHost {s : State} (h : s.Inv) (moves : List HostMove) : { s with host := moves }.Inv where
  in_wf := h.in_wf
  out_wf := h.out_wf
  busy_iff := h.busy_iff
  ip_le := h.ip_le
  size_bound := h.size_bound
  size_exact := h.size_exact
  fill_op := h.fill_op
  fill_bound := h.fill_bound
  fill_exact := h.fill_exact

/-! ## Each update keeps the widths -/

/-- While no operation runs, the internal registers are not architected (R18), and the rest has to fit. -/
theorem State.Fits.of_not_busy {p : Config.Params} {t : State} (hb : t.status ≠ .busy)
    (inLen : t.inLen < 2 ^ p.lenW) (outCap : t.outCap < 2 ^ p.sizeW) (result : t.result < 2 ^ p.sizeW)
    (capReal : t.outCap ≤ p.outMemBytes) (outReal : ∀ c ∈ t.outMem, c.1 < p.outMemBytes)
    (moves : ∀ m ∈ t.host, m.fits p) : t.Fits p where
  inLen := inLen
  outCap := outCap
  result := result
  ip hb' := absurd hb' hb
  acc hb' := absurd hb' hb
  wp hb' := absurd hb' hb
  capReal := capReal
  outReal := outReal
  moves := moves

/-- The state after reset fits every width; the host's coming moves are not the engine's. -/
theorem hardwareReset_fits {p : Config.Params} {s : State} (moves : ∀ m ∈ s.host, m.fits p) :
    s.hardwareReset.Fits p :=
  .of_not_busy (by simp) (Nat.two_pow_pos _) (Nat.two_pow_pos _) (Nat.two_pow_pos _) (Nat.zero_le _) (by simp) moves

section Fits
variable {p : Config.Params} {s t : State}

/-- `SIZE_W = LEN_W + 7` bits hold 128 for each byte of input (R6, R100). -/
theorem State.Fits.size_lt (h : s.Fits p) {n : Nat} (hn : n ≤ 128 * s.inLen) : n < 2 ^ p.sizeW := by
  have hlen := h.inLen
  rw [Config.Params.sizeW, Nat.pow_add]
  omega

theorem State.Fits.begin (h : s.Fits p) (code : CommandCode) : { s with op := code }.begin.Fits p where
  inLen := h.inLen
  outCap := h.outCap
  result := Nat.two_pow_pos _
  ip _ := Nat.two_pow_pos _
  acc _ := Nat.two_pow_pos _
  wp _ := Nat.two_pow_pos _
  capReal := h.capReal
  outReal := h.outReal
  moves := h.moves

theorem State.Fits.raise (h : s.Fits p) (e : CodecError) : (s.raise e).Fits p :=
  .of_not_busy (by simp) h.inLen h.outCap (Nat.two_pow_pos _) h.capReal (by simp) h.moves

theorem State.Fits.endPrediction (h : s.Fits p) (hb : s.status = .busy) : s.endPrediction.Fits p :=
  .of_not_busy (by simp) h.inLen h.outCap (h.acc hb) h.capReal h.outReal h.moves

theorem State.Fits.endFillPass (h : s.Fits p) (hb : s.status = .busy) : s.endFillPass.Fits p :=
  .of_not_busy (by simp) h.inLen h.outCap (h.wp hb) h.capReal h.outReal h.moves

theorem State.Fits.endSizePass (h : s.Fits p) : s.endSizePass.Fits p := by
  unfold State.endSizePass
  split
  · exact h.raise _
  · exact { h with ip := fun _ => Nat.two_pow_pos _, wp := fun _ => Nat.two_pow_pos _ }

/-- A charge that keeps `acc` within 128 for each byte the cursor has passed. -/
theorem State.Fits.chargeSize (h : s.Fits p) {size next : Nat} (hnext : next ≤ s.inLen)
    (hacc : s.acc + size ≤ 128 * next) : (s.chargeSize size next).Fits p :=
  { h with
    ip := fun _ => Nat.lt_of_le_of_lt hnext h.inLen
    acc := fun _ => h.size_lt (hacc.trans (Nat.mul_le_mul_left 128 hnext)) }

/-- A fill step's write: within the capacity, so within the `OUT` memory (R101, R123). -/
theorem State.Fits.emit (h : s.Fits p) {bytes : List Byte} {covered : Nat} (hcap : s.wp + bytes.length ≤ s.outCap)
    (hin : s.ip + covered ≤ s.inLen) : { s with
      outMem := s.outMem.writeBytes s.wp bytes, wp := s.wp + bytes.length, ip := s.ip + covered }.Fits p where
  inLen := h.inLen
  outCap := h.outCap
  result := h.result
  ip _ := Nat.lt_of_le_of_lt hin h.inLen
  acc := h.acc
  wp _ := Nat.lt_of_le_of_lt hcap h.outCap
  capReal := h.capReal
  outReal c hc := by
    have hreal := h.capReal
    rcases mem_writeBytes hc with ⟨-, hwritten⟩ | hold
    · omega
    · exact h.outReal c hold
  moves := h.moves

/-! ## Each step of a command keeps the widths -/

/-- The step charges one group, at most 128 for each byte it covers. -/
theorem encodedSizeStep_fits (h : s.Fits p) (hi : s.ip < s.inLen) (hacc : s.acc ≤ 128 * s.ip)
    (ht : encodedSizeStep s = .next t) : t.Fits p := by
  obtain ⟨g, hg, rfl⟩ := encodedSizeStep_next ht
  obtain ⟨hpos, -, hend, -⟩ := group_bounds hg hi
  have hsize := groupSize_le hpos
  exact h.chargeSize hend (by omega)

/-- The step charges at most 128, and the cursor, though clamped, passes at least one byte. -/
theorem decodedSizeStep_fits (h : s.Fits p) (hi : s.ip < s.inLen) (hacc : s.acc ≤ 128 * s.ip)
    (ht : decodedSizeStep s = .next t) : t.Fits p := by
  obtain ⟨hd, -, rfl⟩ := decodedSizeStep_next ht
  have hcount := count_le hd
  have hpacket := two_le_packetSize hd
  exact h.chargeSize (Nat.min_le_right _ _) (by omega)

theorem encoderFillStep_fits (h : s.Fits p) (hi : s.ip < s.inLen) (ht : encoderFillStep s = .next t) : t.Fits p := by
  obtain ⟨g, bytes, hg, -, hcap, rfl⟩ := encoderFillStep_next ht
  obtain ⟨-, -, hin, -⟩ := group_bounds hg hi
  exact h.emit hcap hin

theorem decoderFillStep_fits (h : s.Fits p) (ht : decoderFillStep s = .next t) : t.Fits p := by
  obtain ⟨hd, -, ⟨-, rfl⟩ | ⟨hin, bytes, -, -, -, hcap, rfl⟩⟩ := decoderFillStep_next ht
  · exact h.raise _
  · exact h.emit hcap hin

/-- A row of the sequencing table keeps the widths when each of its four steps does, taken where the table takes it. -/
theorem sequence_fits {code : CommandCode} {sizeStep endSize fillStep endFill : State → Out} (h : s.Fits p)
    (hinv : s.Inv) (ht : sequence code sizeStep endSize fillStep endFill s = .next t)
    (hsize : s.ip < s.inLen → s.acc ≤ 128 * s.ip → sizeStep s = .next t → t.Fits p)
    (hendSize : s.status = .busy → endSize s = .next t → t.Fits p)
    (hfill : s.ip < s.inLen → fillStep s = .next t → t.Fits p)
    (hendFill : s.status = .busy → endFill s = .next t → t.Fits p) : t.Fits p := by
  rcases sequence_next ht with ⟨-, rfl⟩ | ⟨-, -, rfl⟩ | ⟨-, -, hp, hi, ht⟩ | ⟨hb, -, -, -, ht⟩ | ⟨-, -, -, hi, ht⟩ |
    ⟨hb, -, -, -, ht⟩
  · exact h.begin code
  · exact h
  · exact hsize hi (hinv.size_bound hp) ht
  · exact hendSize hb ht
  · exact hfill hi ht
  · exact hendFill hb ht

/-- Issuing or continuing a command keeps the widths. -/
theorem exec_command_fits (h : s.Fits p) (hinv : s.Inv) (code : CommandCode)
    (ht : exec (decodeCommand code) s = .next t) : t.Fits p := by
  rcases op_cases code with rfl | rfl | rfl | rfl
  case inl =>
    refine sequence_fits h hinv ((exec_enc s).symm.trans ht) (encodedSizeStep_fits h) ?_ (encoderFillStep_fits h) ?_
    · rintro - ⟨⟩
      exact h.endSizePass
    · rintro hb ⟨⟩
      exact h.endFillPass hb
  case inr.inl =>
    refine sequence_fits h hinv ((exec_dec s).symm.trans ht) (decodedSizeStep_fits h) ?_
      (fun _ => decoderFillStep_fits h) ?_
    · rintro - ⟨⟩
      exact h.endSizePass
    · rintro hb ⟨⟩
      exact h.endFillPass hb
  case inr.inr.inl =>
    refine sequence_fits h hinv ((exec_pes s).symm.trans ht) (encodedSizeStep_fits h) ?_ nofun nofun
    rintro hb ⟨⟩
    exact h.endPrediction hb
  case inr.inr.inr =>
    refine sequence_fits h hinv ((exec_pds s).symm.trans ht) (decodedSizeStep_fits h) ?_ nofun nofun
    rintro hb ⟨⟩
    exact h.endPrediction hb

theorem engineStep_fits (h : s.Fits p) (hinv : s.Inv) (ht : s.engineStep = .next t) : t.Fits p := by
  by_cases hb : s.status = .busy
  · rw [engineStep_busy hb] at ht
    exact exec_command_fits h hinv _ ht
  · rw [engineStep_notBusy hb] at ht
    cases ht
    exact h

/-- A move of the host that the parameters allow keeps the widths. -/
theorem hostMove_fits (h : s.Fits p) (hinv : s.Inv) {m : HostMove} (hm : m.fits p) (ht : s.hostMove m = .next t) :
    t.Fits p := by
  cases m with
  | wait => exact engineStep_fits h hinv ht
  | writeIn a v =>
    obtain ⟨-, rfl⟩ := ifOwned_next ht
    exact { h with }
  | writeOut a v =>
    obtain ⟨-, rfl⟩ := ifOwned_next ht
    refine { h with outReal := fun c hc => ?_ }
    rcases mem_write hc with rfl | hold
    · exact hm
    · exact h.outReal c hold
  | writeOp code =>
    obtain ⟨-, rfl⟩ := ifOwned_next ht
    exact { h with }
  | writeInLen n =>
    obtain ⟨-, rfl⟩ := ifOwned_next ht
    exact { h with inLen := hm.1 }
  | writeOutCap n =>
    obtain ⟨-, rfl⟩ := ifOwned_next ht
    exact { h with outCap := hm.1, capReal := hm.2 }
  | start =>
    by_cases hb : s.status = .busy
    · simp only [State.hostMove, hb, if_true] at ht
      cases ht
      exact h
    · simp only [State.hostMove, hb, if_false] at ht
      exact exec_command_fits h hinv _ ht
  | reset =>
    cases ht
    exact hardwareReset_fits h.moves

/-- Every step keeps the widths: the engine's own, or the host's next move with that move off its list. -/
theorem step_fits (h : s.Fits p) (hinv : s.Inv) (ht : step s = .next t) : t.Fits p := by
  cases hhost : s.host with
  | nil =>
    rw [step_noMove hhost] at ht
    exact engineStep_fits h hinv ht
  | cons m rest =>
    rw [step_move hhost] at ht
    have hmoves := h.moves
    rw [hhost, List.forall_mem_cons] at hmoves
    have hrest : { s with host := rest }.Fits p := { h with moves := hmoves.2 }
    exact hostMove_fits hrest (hinv.withHost rest) hmoves.1 ht

end Fits

/-- Settles O48: every update of the state keeps the widths, the size pass because of its bound of 128 for each byte
covered, the fill pass because no write passes `OUT_CAP`. -/
theorem noRegisterWraps : Obligations.NoRegisterWraps :=
  ⟨fun _ _ => hardwareReset_fits (s := State.reset) (by simp [State.reset]),
    fun _ _ _ hinv hfits ht => step_fits hfits hinv ht⟩

end Sys2Proof.Machine

/-! # Every step keeps the invariant (R19 to R22, R81, R101)

While no operation runs, only the canonical form of the two memories is left of the invariant. While one runs, a packet
step adds to `acc`, or writes, exactly what the predicted size of the rest of the input loses. -/

namespace Sys2Proof.Machine

/-! ## What is left of the predicted size, packet by packet -/

theorem remainingSize_of_encoding {code : CommandCode} (hcode : code = 0 ∨ code = 2) (x : List Byte) (i : Nat) :
    remainingSize code x i = pesFrom x x.length i := by
  rcases hcode with rfl | rfl <;> rfl

theorem remainingSize_of_decoding {code : CommandCode} (hcode : code = 1 ∨ code = 3) (x : List Byte) (i : Nat) :
    remainingSize code x i = pdsFrom x x.length i := by
  rcases hcode with rfl | rfl <;> rfl

/-- At the end of the input nothing is left. -/
theorem remainingSize_end {code : CommandCode} (hcode : code = 0 ∨ code = 1) {x : List Byte} {i : Nat}
    (hi : x.length ≤ i) : remainingSize code x i = 0 := by
  rcases hcode with rfl | rfl
  · exact pesFrom_end hi
  · exact pdsFrom_end hi

/-- Whatever has been written of `IN`, some input agrees with it. -/
theorem exists_inputAgrees (s : State) : ∃ x, s.InputAgrees x := by
  refine ⟨(List.range s.inLen).map fun a => (s.inByte a).getD 0, by simp, fun a b hab => ?_⟩
  simp [inByte_lt hab, hab]

section Remaining
variable {s : State} {x : List Byte}

/-- The group the engine finds at the cursor is the group of every input that agrees. -/
theorem remainingSize_group (hx : s.InputAgrees x) (hcode : s.op = 0 ∨ s.op = 2) (hi : s.ip < s.inLen)
    {g : Kind × Nat} (hg : group s.inByte s.inLen s.ip = some g) :
    remainingSize s.op x s.ip = groupSize g + remainingSize s.op x (s.ip + g.2) := by
  obtain ⟨hlen, hbytes⟩ := hx
  have hgx : group (bytesOf x) x.length s.ip = some g := by
    rw [hlen]
    exact group_mono hbytes hg
  simp only [remainingSize_of_encoding hcode]
  exact pesFrom_step (by omega) (by omega) hgx

/-- The header at the cursor is the header there in every input that agrees. -/
theorem remainingSize_header (hx : s.InputAgrees x) (hcode : s.op = 1 ∨ s.op = 3) {hd : Byte}
    (hh : s.inByte s.ip = some hd) :
    remainingSize s.op x s.ip = count hd + remainingSize s.op x (min (s.ip + packetSize hd) s.inLen) := by
  obtain ⟨hlen, hbytes⟩ := hx
  simp only [remainingSize_of_decoding hcode, ← hlen]
  exact pdsFrom_step (hbytes _ _ hh) (by omega)

end Remaining

/-! ## Each update keeps the invariant -/

/-- While no operation runs the invariant says only that both memories are in canonical form. -/
theorem State.Inv.of_idle {t : State} (hb : t.status ≠ .busy) (hp : t.phase = .idle) (hin : t.inMem.wf)
    (hout : t.outMem.wf) : t.Inv where
  in_wf := hin
  out_wf := hout
  busy_iff := by simp [hb, hp]
  ip_le hb' := absurd hb' hb
  size_bound hp' := by simp [hp] at hp'
  size_exact hp' := by simp [hp] at hp'
  fill_op hp' := by simp [hp] at hp'
  fill_bound hp' := by simp [hp] at hp'
  fill_exact hp' := by simp [hp] at hp'

theorem hardwareReset_inv (s : State) : s.hardwareReset.Inv :=
  .of_idle (by simp) rfl List.Pairwise.nil List.Pairwise.nil

section Invariant
variable {s t : State}

theorem State.Inv.phase_idle (h : s.Inv) (hb : s.status ≠ .busy) : s.phase = .idle := by
  by_contra hp
  exact hb (h.busy_iff.mpr hp)

/-- An access the host is allowed leaves the engine idle; it has to keep the canonical form. -/
theorem State.Inv.ifOwned (h : s.Inv) {u : State} (ht : s.ifOwned u = .next t) (hstatus : u.status = s.status)
    (hphase : u.phase = s.phase) (hin : u.inMem.wf) (hout : u.outMem.wf) : t.Inv := by
  obtain ⟨hb, rfl⟩ := ifOwned_next ht
  exact .of_idle (hstatus ▸ hb) (hphase.trans (h.phase_idle hb)) hin hout

theorem State.Inv.begin (h : s.Inv) (code : CommandCode) : { s with op := code }.begin.Inv where
  in_wf := h.in_wf
  out_wf := h.out_wf
  busy_iff := by simp
  ip_le _ := Nat.zero_le _
  size_bound _ := Nat.zero_le _
  size_exact _ x _ := Nat.zero_add _
  fill_op hp := by simp at hp
  fill_bound hp := by simp at hp
  fill_exact hp := by simp at hp

theorem State.Inv.raise (h : s.Inv) (e : CodecError) : (s.raise e).Inv :=
  .of_idle (by simp) rfl h.in_wf List.Pairwise.nil

theorem State.Inv.endPrediction (h : s.Inv) : s.endPrediction.Inv := .of_idle (by simp) rfl h.in_wf h.out_wf

theorem State.Inv.endFillPass (h : s.Inv) : s.endFillPass.Inv := .of_idle (by simp) rfl h.in_wf h.out_wf

/-- The size pass has counted the whole input, so the fill pass begins with `acc` the predicted size. -/
theorem State.Inv.endSizePass (h : s.Inv) (hb : s.status = .busy) (hp : s.phase = .size)
    (hop : s.op = 0 ∨ s.op = 1) (hend : s.inLen ≤ s.ip) : s.endSizePass.Inv := by
  unfold State.endSizePass
  split
  · exact h.raise _
  · rename_i hcap
    have hip : s.ip = s.inLen := Nat.le_antisymm (h.ip_le hb) hend
    exact {
      in_wf := h.in_wf
      out_wf := h.out_wf
      busy_iff := by simp [hb]
      ip_le := fun _ => Nat.zero_le _
      size_bound := fun hp' => by simp at hp'
      size_exact := fun hp' => by simp at hp'
      fill_op := fun _ => hop
      fill_bound := fun _ => ⟨Nat.zero_le _, Nat.not_lt.mp hcap, hip ▸ h.size_bound hp⟩
      fill_exact := fun _ x hx => by
        have hexact := h.size_exact hp x hx
        rw [remainingSize_end hop (by rw [hx.1]; exact hend)] at hexact
        simpa using hexact.symm }

/-- A size step moves one packet from what is left to `acc`. -/
theorem State.Inv.chargeSize (h : s.Inv) (hp : s.phase = .size) {size next : Nat} (hnext : next ≤ s.inLen)
    (hacc : s.acc + size ≤ 128 * next)
    (hpacket : ∀ x, s.InputAgrees x → remainingSize s.op x s.ip = size + remainingSize s.op x next) :
    (s.chargeSize size next).Inv where
  in_wf := h.in_wf
  out_wf := h.out_wf
  busy_iff := h.busy_iff
  ip_le _ := hnext
  size_bound _ := hacc
  size_exact _ x hx := by
    have hexact := h.size_exact hp x hx
    rw [hpacket x hx, ← Nat.add_assoc] at hexact
    exact hexact
  fill_op := h.fill_op
  fill_bound hp' := by simp [hp] at hp'
  fill_exact hp' := by simp [hp] at hp'

/-- A fill step moves one packet from what is left to the bytes written, so `wp` cannot pass `acc`. -/
theorem State.Inv.emit (h : s.Inv) (hp : s.phase = .fill) {bytes : List Byte} {covered : Nat}
    (hin : s.ip + covered ≤ s.inLen)
    (hpacket : ∀ x, s.InputAgrees x →
      remainingSize s.op x s.ip = bytes.length + remainingSize s.op x (s.ip + covered)) :
    { s with
      outMem := s.outMem.writeBytes s.wp bytes, wp := s.wp + bytes.length, ip := s.ip + covered }.Inv := by
  have hexact (x : List Byte) (hx : s.InputAgrees x) :
      s.wp + bytes.length + remainingSize s.op x (s.ip + covered) = s.acc := by
    rw [Nat.add_assoc, ← hpacket x hx]
    exact h.fill_exact hp x hx
  obtain ⟨-, hcap, hacc⟩ := h.fill_bound hp
  obtain ⟨x, hx⟩ := exists_inputAgrees s
  exact {
    in_wf := h.in_wf
    out_wf := wf_writeBytes h.out_wf _ _
    busy_iff := h.busy_iff
    ip_le := fun _ => hin
    size_bound := fun hp' => by simp [hp] at hp'
    size_exact := fun hp' => by simp [hp] at hp'
    fill_op := h.fill_op
    fill_bound := fun _ => ⟨hexact x hx ▸ Nat.le_add_right _ _, hcap, hacc⟩
    fill_exact := fun _ => hexact }

/-! ## Each step of a command keeps the invariant -/

theorem encodedSizeStep_inv (h : s.Inv) (hop : s.op = 0 ∨ s.op = 2) (hp : s.phase = .size) (hi : s.ip < s.inLen)
    (ht : encodedSizeStep s = .next t) : t.Inv := by
  obtain ⟨g, hg, rfl⟩ := encodedSizeStep_next ht
  obtain ⟨hpos, -, hend, -⟩ := group_bounds hg hi
  have hsize := groupSize_le hpos
  have hacc := h.size_bound hp
  exact h.chargeSize hp hend (by omega) fun x hx => remainingSize_group hx hop hi hg

theorem decodedSizeStep_inv (h : s.Inv) (hop : s.op = 1 ∨ s.op = 3) (hp : s.phase = .size) (hi : s.ip < s.inLen)
    (ht : decodedSizeStep s = .next t) : t.Inv := by
  obtain ⟨hd, hh, rfl⟩ := decodedSizeStep_next ht
  have hcount := count_le hd
  have hpacket := two_le_packetSize hd
  have hacc := h.size_bound hp
  exact h.chargeSize hp (Nat.min_le_right _ _) (by omega) fun x hx => remainingSize_header hx hop hh

theorem encoderFillStep_inv (h : s.Inv) (hop : s.op = 0) (hp : s.phase = .fill) (hi : s.ip < s.inLen)
    (ht : encoderFillStep s = .next t) : t.Inv := by
  obtain ⟨g, bytes, hg, hbytes, -, rfl⟩ := encoderFillStep_next ht
  obtain ⟨-, -, hin, -⟩ := group_bounds hg hi
  refine h.emit hp hin fun x hx => ?_
  rw [groupBytes_length hbytes]
  exact remainingSize_group hx (.inl hop) hi hg

theorem decoderFillStep_inv (h : s.Inv) (hop : s.op = 1) (hp : s.phase = .fill)
    (ht : decoderFillStep s = .next t) : t.Inv := by
  obtain ⟨hd, hh, ⟨-, rfl⟩ | ⟨hin, bytes, hlen, -, -, -, rfl⟩⟩ := decoderFillStep_next ht
  · exact h.raise _
  · refine h.emit hp hin fun x hx => ?_
    have hheader := remainingSize_header hx (.inl hop) hh
    rwa [Nat.min_eq_left hin, ← hlen] at hheader

/-- A row of the sequencing table keeps the invariant when each of its four steps does, taken where the table takes
it. -/
theorem sequence_inv {code : CommandCode} {sizeStep endSize fillStep endFill : State → Out} (h : s.Inv)
    (ht : sequence code sizeStep endSize fillStep endFill s = .next t)
    (hsize : s.op = code → s.phase = .size → s.ip < s.inLen → sizeStep s = .next t → t.Inv)
    (hendSize : s.status = .busy → s.op = code → s.phase = .size → s.inLen ≤ s.ip → endSize s = .next t → t.Inv)
    (hfill : s.op = code → s.phase = .fill → s.ip < s.inLen → fillStep s = .next t → t.Inv)
    (hendFill : endFill s = .next t → t.Inv) : t.Inv := by
  rcases sequence_next ht with ⟨-, rfl⟩ | ⟨-, -, rfl⟩ | ⟨-, hop, hp, hi, ht⟩ | ⟨hb, hop, hp, hi, ht⟩ |
    ⟨-, hop, hp, hi, ht⟩ | ⟨-, -, -, -, ht⟩
  · exact h.begin code
  · exact h
  · exact hsize hop hp hi ht
  · exact hendSize hb hop hp hi ht
  · exact hfill hop hp hi ht
  · exact hendFill ht

/-- Issuing or continuing a command keeps the invariant. -/
theorem exec_command_inv (h : s.Inv) (code : CommandCode) (ht : exec (decodeCommand code) s = .next t) : t.Inv := by
  rcases op_cases code with rfl | rfl | rfl | rfl
  case inl =>
    refine sequence_inv h ((exec_enc s).symm.trans ht) (fun hop => encodedSizeStep_inv h (.inl hop)) ?_
      (encoderFillStep_inv h) ?_
    · rintro hb hop hp hend ⟨⟩
      exact h.endSizePass hb hp (.inl hop) hend
    · rintro ⟨⟩
      exact h.endFillPass
  case inr.inl =>
    refine sequence_inv h ((exec_dec s).symm.trans ht) (fun hop => decodedSizeStep_inv h (.inl hop)) ?_
      (fun hop hp _ => decoderFillStep_inv h hop hp) ?_
    · rintro hb hop hp hend ⟨⟩
      exact h.endSizePass hb hp (.inr hop) hend
    · rintro ⟨⟩
      exact h.endFillPass
  case inr.inr.inl =>
    refine sequence_inv h ((exec_pes s).symm.trans ht) (fun hop => encodedSizeStep_inv h (.inr hop)) ?_ nofun nofun
    rintro - - - - ⟨⟩
    exact h.endPrediction
  case inr.inr.inr =>
    refine sequence_inv h ((exec_pds s).symm.trans ht) (fun hop => decodedSizeStep_inv h (.inr hop)) ?_ nofun nofun
    rintro - - - - ⟨⟩
    exact h.endPrediction

theorem engineStep_inv (h : s.Inv) (ht : s.engineStep = .next t) : t.Inv := by
  by_cases hb : s.status = .busy
  · rw [engineStep_busy hb] at ht
    exact exec_command_inv h _ ht
  · rw [engineStep_notBusy hb] at ht
    cases ht
    exact h

theorem hostMove_inv (h : s.Inv) {m : HostMove} (ht : s.hostMove m = .next t) : t.Inv := by
  cases m with
  | wait => exact engineStep_inv h ht
  | writeIn a v => exact h.ifOwned ht rfl rfl (wf_write h.in_wf a v) h.out_wf
  | writeOut a v => exact h.ifOwned ht rfl rfl h.in_wf (wf_write h.out_wf a v)
  | writeOp code => exact h.ifOwned ht rfl rfl h.in_wf h.out_wf
  | writeInLen n => exact h.ifOwned ht rfl rfl h.in_wf h.out_wf
  | writeOutCap n => exact h.ifOwned ht rfl rfl h.in_wf h.out_wf
  | start =>
    by_cases hb : s.status = .busy
    · simp only [State.hostMove, hb, if_true] at ht
      cases ht
      exact h
    · simp only [State.hostMove, hb, if_false] at ht
      exact exec_command_inv h _ ht
  | reset =>
    cases ht
    exact hardwareReset_inv s

/-- Every step keeps the invariant: the engine's own, or the host's next move with that move off its list. -/
theorem step_inv (h : s.Inv) (ht : step s = .next t) : t.Inv := by
  cases hhost : s.host with
  | nil =>
    rw [step_noMove hhost] at ht
    exact engineStep_inv h ht
  | cons m rest =>
    rw [step_move hhost] at ht
    exact hostMove_inv (h.withHost rest) ht

end Invariant

/-- Settles O47: a packet step moves one packet from what is left of the predicted size to `acc` or to the bytes
written, and every other step leaves the engine idle, begins a pass or changes nothing of the invariant. -/
theorem everyStepKeepsTheInvariant : Obligations.EveryStepKeepsTheInvariant := fun _ _ => step_inv

/-- Settles O46: the engine is idle after reset and both memories are empty. -/
theorem invariantHoldsAtReset : Obligations.InvariantHoldsAtReset := hardwareReset_inv State.reset

end Sys2Proof.Machine

/-! # What the engine writes (R10, R11, R27, R84, R85, R122)

What no instruction changes is said of each shared operation once, and then of each row of the sequencing table. -/

namespace Sys2Proof.Machine

/-! ## The host's side: `IN`, `IN_LEN`, `OUT_CAP`, `OP` and the coming moves -/

/-- Everything the host owns while an operation runs is unchanged (R27, R85), `OP` where `p` holds. -/
def State.SameHostSide (s : State) (p : Prop) (t : State) : Prop :=
  s.SameInput t ∧ t.host = s.host ∧ (p → t.op = s.op)

section HostSide
variable {s t : State} {p : Prop}

theorem raise_sameHostSide (s : State) (e : CodecError) : s.SameHostSide p (s.raise e) :=
  ⟨⟨rfl, rfl, rfl⟩, rfl, fun _ => rfl⟩

theorem chargeSize_sameHostSide (s : State) (size next : Nat) : s.SameHostSide p (s.chargeSize size next) :=
  ⟨⟨rfl, rfl, rfl⟩, rfl, fun _ => rfl⟩

theorem endSizePass_sameHostSide (s : State) : s.SameHostSide p s.endSizePass := by
  unfold State.endSizePass
  split
  · exact raise_sameHostSide s _
  · exact ⟨⟨rfl, rfl, rfl⟩, rfl, fun _ => rfl⟩

theorem endPrediction_sameHostSide (s : State) : s.SameHostSide p s.endPrediction :=
  ⟨⟨rfl, rfl, rfl⟩, rfl, fun _ => rfl⟩

theorem endFillPass_sameHostSide (s : State) : s.SameHostSide p s.endFillPass :=
  ⟨⟨rfl, rfl, rfl⟩, rfl, fun _ => rfl⟩

theorem emit_sameHostSide {bytes : List Byte} {covered : Nat} (ht : s.emit bytes covered = .next t) :
    s.SameHostSide p t := by
  obtain ⟨-, rfl⟩ := emit_next ht
  exact ⟨⟨rfl, rfl, rfl⟩, rfl, fun _ => rfl⟩

theorem execRun_sameHostSide {c : Nat} {v : Byte} (ht : execRun c v s = .next t) : s.SameHostSide p t := by
  unfold execRun at ht
  split at ht
  · cases ht
    exact raise_sameHostSide s _
  · exact emit_sameHostSide ht

theorem execLit_sameHostSide {payload : List Byte} (ht : execLit payload s = .next t) : s.SameHostSide p t := by
  unfold execLit at ht
  split at ht
  · cases ht
    exact raise_sameHostSide s _
  · exact emit_sameHostSide ht

theorem encodedSizeStep_sameHostSide (ht : encodedSizeStep s = .next t) : s.SameHostSide p t := by
  obtain ⟨g, -, rfl⟩ := encodedSizeStep_next ht
  exact chargeSize_sameHostSide s _ _

theorem decodedSizeStep_sameHostSide (ht : decodedSizeStep s = .next t) : s.SameHostSide p t := by
  obtain ⟨hd, -, rfl⟩ := decodedSizeStep_next ht
  exact chargeSize_sameHostSide s _ _

theorem encoderFillStep_sameHostSide (ht : encoderFillStep s = .next t) : s.SameHostSide p t := by
  obtain ⟨g, bytes, -, -, -, rfl⟩ := encoderFillStep_next ht
  exact ⟨⟨rfl, rfl, rfl⟩, rfl, fun _ => rfl⟩

theorem decoderFillStep_sameHostSide (ht : decoderFillStep s = .next t) : s.SameHostSide p t := by
  obtain ⟨hd, -, ⟨-, rfl⟩ | ⟨-, bytes, -, -, -, -, rfl⟩⟩ := decoderFillStep_next ht
  · exact raise_sameHostSide s _
  · exact ⟨⟨rfl, rfl, rfl⟩, rfl, fun _ => rfl⟩

/-- The launch writes `OP`; every other row of the sequencing table changes nothing of the host's side when its step
does not. -/
theorem sequence_sameHostSide {code : CommandCode} {sizeStep endSize fillStep endFill : State → Out}
    (ht : sequence code sizeStep endSize fillStep endFill s = .next t)
    (hsize : sizeStep s = .next t → s.SameHostSide (s.status = .busy) t)
    (hendSize : endSize s = .next t → s.SameHostSide (s.status = .busy) t)
    (hfill : fillStep s = .next t → s.SameHostSide (s.status = .busy) t)
    (hendFill : endFill s = .next t → s.SameHostSide (s.status = .busy) t) : s.SameHostSide (s.status = .busy) t := by
  rcases sequence_next ht with ⟨hb, rfl⟩ | ⟨-, -, rfl⟩ | ⟨-, -, -, -, ht⟩ | ⟨-, -, -, -, ht⟩ | ⟨-, -, -, -, ht⟩ |
    ⟨-, -, -, -, ht⟩
  · exact ⟨⟨rfl, rfl, rfl⟩, rfl, fun hb' => absurd hb' hb⟩
  · exact ⟨⟨rfl, rfl, rfl⟩, rfl, fun _ => rfl⟩
  · exact hsize ht
  · exact hendSize ht
  · exact hfill ht
  · exact hendFill ht

/-- A command changes nothing of the host's side but `OP`, and that only when it is launched. -/
theorem exec_command_sameHostSide (code : CommandCode) (ht : exec (decodeCommand code) s = .next t) :
    s.SameHostSide (s.status = .busy) t := by
  rcases op_cases code with rfl | rfl | rfl | rfl
  case inl =>
    refine sequence_sameHostSide ((exec_enc s).symm.trans ht) encodedSizeStep_sameHostSide ?_
      encoderFillStep_sameHostSide ?_
    · rintro ⟨⟩
      exact endSizePass_sameHostSide s
    · rintro ⟨⟩
      exact endFillPass_sameHostSide s
  case inr.inl =>
    refine sequence_sameHostSide ((exec_dec s).symm.trans ht) decodedSizeStep_sameHostSide ?_
      decoderFillStep_sameHostSide ?_
    · rintro ⟨⟩
      exact endSizePass_sameHostSide s
    · rintro ⟨⟩
      exact endFillPass_sameHostSide s
  case inr.inr.inl =>
    refine sequence_sameHostSide ((exec_pes s).symm.trans ht) encodedSizeStep_sameHostSide ?_ nofun nofun
    rintro ⟨⟩
    exact endPrediction_sameHostSide s
  case inr.inr.inr =>
    refine sequence_sameHostSide ((exec_pds s).symm.trans ht) decodedSizeStep_sameHostSide ?_ nofun nofun
    rintro ⟨⟩
    exact endPrediction_sameHostSide s

end HostSide

/-- Settles O49: a packet only raises or emits, and a command writes `OP` only when it is launched. -/
theorem engineLeavesTheHostsSideAlone : Obligations.EngineLeavesTheHostsSideAlone := by
  intro i s t ht
  have command (code : CommandCode) (hi : i = decodeCommand code) (hn : isPacket i = false) :
      s.SameHostSide (s.status = .busy ∨ isPacket i = true) t := by
    obtain ⟨hinput, hhost, hop⟩ := exec_command_sameHostSide code (hi ▸ ht)
    exact ⟨hinput, hhost, fun h => hop (h.resolve_right (by simp [hn]))⟩
  cases i with
  | run c v => exact execRun_sameHostSide ht
  | lit payload => exact execLit_sameHostSide ht
  | enc => exact command 0 rfl rfl
  | dec => exact command 1 rfl rfl
  | pes => exact command 2 rfl rfl
  | pds => exact command 3 rfl rfl

/-! ## The predictors write no output -/

/-- A command with a size pass alone writes no output when its size step does not: the launch sets `wp` to 0, and the
end leaves it. -/
theorem prediction_writes_no_output {code : CommandCode} {sizeStep : State → Out} {s t : State}
    (ht : sequence code sizeStep (fun s => .next s.endPrediction) noStep noStep s = .next t)
    (hsize : sizeStep s = .next t → t.outMem = s.outMem ∧ t.wp ≤ s.wp) : t.outMem = s.outMem ∧ t.wp ≤ s.wp := by
  rcases sequence_next ht with ⟨-, rfl⟩ | ⟨-, -, rfl⟩ | ⟨-, -, -, -, ht⟩ | ⟨-, -, -, -, ⟨⟩⟩ | ⟨-, -, -, -, ⟨⟩⟩ |
    ⟨-, -, -, -, ⟨⟩⟩
  · exact ⟨rfl, Nat.zero_le _⟩
  · exact ⟨rfl, Nat.le_refl _⟩
  · exact hsize ht
  · exact ⟨rfl, Nat.le_refl _⟩

/-- Settles O50: the size steps only charge, and the two predictors have no fill pass. -/
theorem predictorsNeverWriteOut : Obligations.PredictorsNeverWriteOut := by
  rintro s t (ht | ht)
  · refine prediction_writes_no_output ((exec_pes s).symm.trans ht) fun ht => ?_
    obtain ⟨g, -, rfl⟩ := encodedSizeStep_next ht
    exact ⟨rfl, Nat.le_refl _⟩
  · refine prediction_writes_no_output ((exec_pds s).symm.trans ht) fun ht => ?_
    obtain ⟨hd, -, rfl⟩ := decodedSizeStep_next ht
    exact ⟨rfl, Nat.le_refl _⟩

/-! ## The contents of `IN` at `IN_LEN` and above -/

/-- The same state with another `IN`. -/
def State.withIn (m : Memory) (s : State) : State := { s with inMem := m }

@[simp] theorem withIn_inLen (m : Memory) (s : State) : (s.withIn m).inLen = s.inLen := rfl
@[simp] theorem withIn_ip (m : Memory) (s : State) : (s.withIn m).ip = s.ip := rfl
@[simp] theorem withIn_phase (m : Memory) (s : State) : (s.withIn m).phase = s.phase := rfl

/-- `f` answers from `s` with `IN` replaced by `m` what it answers from `s`, but for `IN`. -/
def IgnoresIn (m : Memory) (f : State → Out) (s : State) : Prop := f (s.withIn m) = mapNext (State.withIn m) (f s)

theorem IgnoresIn.ite {m : Memory} {s : State} {p : State → Prop} [DecidablePred p] {f g : State → Out}
    (hp : p (s.withIn m) ↔ p s) (hf : IgnoresIn m f s) (hg : IgnoresIn m g s) :
    IgnoresIn m (fun s => if p s then f s else g s) s := by
  by_cases h : p s
  · simpa only [IgnoresIn, if_pos h, if_pos (hp.mpr h)] using hf
  · simpa only [IgnoresIn, if_neg h, if_neg (mt hp.mp h)] using hg

section BytesPastTheInput
variable {m : Memory} {s : State}

/-! The updates never look at `IN`. -/

theorem emit_ignoresIn (bytes : List Byte) (covered : Nat) : IgnoresIn m (State.emit · bytes covered) s :=
  .ite Iff.rfl rfl rfl

theorem execRun_ignoresIn (c : Nat) (v : Byte) : IgnoresIn m (execRun c v) s :=
  .ite Iff.rfl rfl (emit_ignoresIn _ _)

theorem execLit_ignoresIn (payload : List Byte) : IgnoresIn m (execLit payload) s :=
  .ite Iff.rfl rfl (emit_ignoresIn _ _)

theorem endSizePass_ignoresIn : IgnoresIn m (fun s => .next s.endSizePass) s := by
  have branches : IgnoresIn m (fun s => if s.capacityExceeded then .next (s.raise .allocationFailure)
      else .next { s with phase := .fill, ip := 0, wp := 0 }) s := .ite Iff.rfl rfl rfl
  simpa only [IgnoresIn, State.endSizePass, apply_ite Host.Outcome.next] using branches

theorem endPrediction_ignoresIn : IgnoresIn m (fun s => .next s.endPrediction) s := rfl

theorem endFillPass_ignoresIn : IgnoresIn m (fun s => .next s.endFillPass) s := rfl

theorem noStep_ignoresIn : IgnoresIn m noStep s := rfl

/-- A row of the sequencing table looks at `IN` only in its steps. -/
theorem sequence_ignoresIn {code : CommandCode} {sizeStep endSize fillStep endFill : State → Out}
    (hsize : IgnoresIn m sizeStep s) (hendSize : IgnoresIn m endSize s) (hfill : IgnoresIn m fillStep s)
    (hendFill : IgnoresIn m endFill s) : IgnoresIn m (sequence code sizeStep endSize fillStep endFill) s := by
  refine .ite Iff.rfl (.ite Iff.rfl ?_ rfl) rfl
  cases hp : s.phase with
  | idle => simp only [IgnoresIn, withIn_phase, hp, mapNext]
  | size => simpa only [IgnoresIn, withIn_phase, hp] using IgnoresIn.ite (p := State.moreInput) Iff.rfl hsize hendSize
  | fill => simpa only [IgnoresIn, withIn_phase, hp] using IgnoresIn.ite (p := State.moreInput) Iff.rfl hfill hendFill

/-! The packet steps read `IN` through `inByte` alone, which is the same byte source. -/

variable (hm : ∀ a, a < s.inLen → m.read a = s.inMem.read a)
include hm

/-- The same bytes below `IN_LEN` are the same byte source. -/
theorem withIn_inByte : (s.withIn m).inByte = s.inByte := by
  funext a
  by_cases ha : a < s.inLen
  · exact (inByte_eq (s := s.withIn m) ha).trans ((hm a ha).trans (inByte_eq ha).symm)
  · have ha' : ¬ a < (s.withIn m).inLen := ha
    simp only [State.inByte, if_neg ha, if_neg ha']

theorem encodedSizeStep_ignoresIn : IgnoresIn m encodedSizeStep s := by
  unfold IgnoresIn encodedSizeStep
  rw [withIn_inByte hm, withIn_inLen, withIn_ip]
  cases group s.inByte s.inLen s.ip <;> rfl

theorem decodedSizeStep_ignoresIn : IgnoresIn m decodedSizeStep s := by
  unfold IgnoresIn decodedSizeStep
  rw [withIn_inByte hm, withIn_ip]
  cases s.inByte s.ip <;> rfl

theorem encoderFillStep_ignoresIn : IgnoresIn m encoderFillStep s := by
  unfold IgnoresIn encoderFillStep
  simp only [withIn_inByte hm, withIn_inLen, withIn_ip]
  cases group s.inByte s.inLen s.ip with
  | none => rfl
  | some g =>
    cases hb : groupBytes s.inByte s.ip g with
    | none => simp only [hb, mapNext]
    | some bytes =>
      simp only [hb]
      exact emit_ignoresIn bytes g.2

theorem fetchPacket_withIn : (s.withIn m).fetchPacket = s.fetchPacket := by
  unfold State.fetchPacket
  rw [withIn_inByte hm]
  rfl

theorem decoderFillStep_ignoresIn : IgnoresIn m decoderFillStep s := by
  unfold IgnoresIn decoderFillStep
  rw [fetchPacket_withIn hm]
  cases s.fetchPacket with
  | packet i =>
    cases i with
    | run c v => exact execRun_ignoresIn c v
    | lit payload => exact execLit_ignoresIn payload
    | enc | dec | pes | pds => rfl
  | truncated | unwritten => rfl

end BytesPastTheInput

/-- Settles O52: `IN` is read through `inByte` alone, and that reads nothing at `IN_LEN` and above. -/
theorem bytesPastTheInputDoNotMatter : Obligations.BytesPastTheInputDoNotMatter := by
  intro i s m hm
  cases i with
  | run c v => exact execRun_ignoresIn c v
  | lit payload => exact execLit_ignoresIn payload
  | enc =>
    exact sequence_ignoresIn (encodedSizeStep_ignoresIn hm) endSizePass_ignoresIn (encoderFillStep_ignoresIn hm)
      endFillPass_ignoresIn
  | dec =>
    exact sequence_ignoresIn (decodedSizeStep_ignoresIn hm) endSizePass_ignoresIn (decoderFillStep_ignoresIn hm)
      endFillPass_ignoresIn
  | pes =>
    exact sequence_ignoresIn (encodedSizeStep_ignoresIn hm) endPrediction_ignoresIn noStep_ignoresIn noStep_ignoresIn
  | pds =>
    exact sequence_ignoresIn (decodedSizeStep_ignoresIn hm) endPrediction_ignoresIn noStep_ignoresIn noStep_ignoresIn

end Sys2Proof.Machine

/-! # The host's moves and what the host reads (R12, R15, R16, R27, R28, R80, R85, R86, R118, R120) -/

namespace Sys2Proof.Machine

section HostAccess
variable {s : State}

/-! ## Accesses the host has only while the engine is not `BUSY` -/

theorem ifOwned_notBusy (hb : s.status ≠ .busy) (u : State) : s.ifOwned u = .next u := by
  simp [State.ifOwned, hb]

theorem ifOwned_busy (hb : s.status = .busy) (u : State) : s.ifOwned u = .refused .hostAccessWhileBusy := by
  simp [State.ifOwned, hb]

theorem hostReadIn_busy (hb : s.status = .busy) (a : Nat) : s.hostReadIn a = none := by
  simp [State.hostReadIn, hb]

theorem hostReadOut_busy (hb : s.status = .busy) (a : Nat) : s.hostReadOut a = none := by
  simp [State.hostReadOut, hb]

/-- What the host reads of `IN` after its own write of one byte. -/
theorem hostReadIn_write (hb : s.status ≠ .busy) (rest : List HostMove) (a b : Nat) (v : Byte) :
    { s with host := rest, inMem := s.inMem.write a v }.hostReadIn b =
      if b = a then some v else s.hostReadIn b := by
  simp only [State.hostReadIn, if_neg hb, read_write]

/-- What the host reads of `OUT` after its own write of one byte. -/
theorem hostReadOut_write (hb : s.status ≠ .busy) (rest : List HostMove) (a b : Nat) (v : Byte) :
    { s with host := rest, outMem := s.outMem.write a v }.hostReadOut b =
      if b = a then some v else s.hostReadOut b := by
  simp only [State.hostReadOut, if_neg hb, read_write]

/-- Memories that list nothing have no byte for the host, whether the engine is busy or not. -/
theorem hostReads_none (hin : s.inMem = []) (hout : s.outMem = []) (a : Nat) :
    s.hostReadIn a = none ∧ s.hostReadOut a = none := by
  simp [State.hostReadIn, State.hostReadOut, hin, hout]

end HostAccess

/-- Settles O43: an owned access is the update itself, and a read after a write is the memory's own law. -/
theorem hostWritesReachTheirTargets : Obligations.HostWritesReachTheirTargets := by
  intro s rest hb _ _
  have owned {m : HostMove} {u : State} (hhost : s.host = m :: rest)
      (hmove : { s with host := rest }.hostMove m = { s with host := rest }.ifOwned u) : step s = .next u := by
    rw [step_move hhost, hmove]
    exact ifOwned_notBusy hb u
  refine ⟨fun a v hhost => ⟨_, owned hhost rfl, rfl, ?_, fun b hba => ?_⟩,
    fun a v hhost => ⟨_, owned hhost rfl, rfl, ?_, fun b hba => ?_⟩,
    fun code hhost => owned hhost rfl, fun n hhost => owned hhost rfl, fun n hhost => owned hhost rfl⟩
  · exact (hostReadIn_write hb rest a a v).trans (if_pos rfl)
  · exact (hostReadIn_write hb rest a b v).trans (if_neg hba)
  · exact (hostReadOut_write hb rest a a v).trans (if_pos rfl)
  · exact (hostReadOut_write hb rest a b v).trans (if_neg hba)

/-- Settles O44: each move but `wait`, `start` and `reset` is an access R27 restricts. -/
theorem forbiddenHostAccessIsRefused : Obligations.ForbiddenHostAccessIsRefused := by
  intro s m rest hhost hb hwait hstart hreset
  rw [step_move hhost]
  cases m with
  | wait => exact absurd rfl hwait
  | start => exact absurd rfl hstart
  | reset => exact absurd rfl hreset
  | writeIn | writeOut | writeOp | writeInLen | writeOutCap => exact ifOwned_busy hb _

/-! ## The status on the register and on the ports -/

section Ports

theorem code_eq_one_iff (st : Status) : st.code = 1 ↔ st = .busy := by cases st <;> decide

theorem code_le_four (st : Status) : st.code.toNat ≤ 4 := by cases st <;> decide

variable (s : State)

theorem busyPort_iff : s.busyPort = true ↔ s.status = .busy := beq_iff_eq

theorem donePort_iff : s.donePort = true ↔ s.status ≠ .busy ∧ s.status ≠ .idle := by
  unfold State.donePort
  cases s.status <;> decide

/-- `err` has a value exactly when `done` is 1. -/
theorem errPort_none_iff : s.errPort = none ↔ s.donePort = false := by
  unfold State.errPort State.donePort
  cases s.status <;> decide

/-- The three values of `err`, each the code of one end. -/
theorem errPort_some_iff : (s.errPort = some 0 ↔ s.status = .done) ∧
    (s.errPort = some 1 ↔ s.status = .errMalformed) ∧ (s.errPort = some 2 ↔ s.status = .errAlloc) := by
  unfold State.errPort
  cases s.status <;> decide

theorem hostReadResult_none_iff : s.hostReadResult = none ↔ s.status = .busy := by simp [State.hostReadResult]

end Ports

/-- Settles O45: the register's codes, the three ports, and the reads without a value. -/
theorem hostSeesTheStatus : Obligations.HostSeesTheStatus := by
  intro s
  obtain ⟨hdone, hmalformed, halloc⟩ := errPort_some_iff s
  exact ⟨code_eq_one_iff s.status, code_le_four s.status, busyPort_iff s, donePort_iff s, errPort_none_iff s, hdone,
    hmalformed, halloc, hostReadResult_none_iff s, fun hb a => ⟨hostReadOut_busy hb a, hostReadIn_busy hb a⟩⟩

/-! ## Reset -/

/-- Settles O41: by the definition of the state after reset. -/
theorem resetLeavesTheEngineIdle : Obligations.ResetLeavesTheEngineIdle :=
  ⟨rfl, rfl, rfl, rfl, rfl, rfl, hostReads_none rfl rfl⟩

/-- Settles O42: the move has no condition, and its effect is `hardwareReset`. -/
theorem resetAbandonsTheOperation : Obligations.ResetAbandonsTheOperation := by
  intro s rest hhost
  exact ⟨_, step_move hhost, rfl, rfl, rfl, rfl, rfl, rfl, rfl, hostReads_none rfl rfl⟩

/-! ## The codes of `OP` and the launch -/

theorem encode_decodeCommand (code : CommandCode) : encode (decodeCommand code) = .opRegister code := by
  rcases op_cases code with rfl | rfl | rfl | rfl <;> rfl

/-- A command's code decodes to it; a packet has none. -/
theorem decodeCommand_of_encode {i : Instr} {code : CommandCode} (h : encode i = .opRegister code) :
    i = decodeCommand code := by
  cases i <;> cases h <;> rfl

/-- Settles O8: the register has four values, and each is looked at. -/
theorem commandCodesSelectTheFourFunctions : Obligations.CommandCodesSelectTheFourFunctions :=
  ⟨decodeCommand_zero, decodeCommand_one, decodeCommand_two, decodeCommand_three, encode_decodeCommand⟩

/-- Every command is the row of the sequencing table of its own code; only `ENC` and `DEC` have a fill pass. -/
theorem exec_command_sequence (code : CommandCode) :
    ∃ sizeStep endSize fillStep endFill, (code = 2 ∨ code = 3 → fillStep = noStep ∧ endFill = noStep) ∧
      ∀ s, exec (decodeCommand code) s = sequence code sizeStep endSize fillStep endFill s := by
  rcases op_cases code with rfl | rfl | rfl | rfl
  · exact ⟨_, _, _, _, by simp, exec_enc⟩
  · exact ⟨_, _, _, _, by simp, exec_dec⟩
  · exact ⟨_, _, _, _, fun _ => ⟨rfl, rfl⟩, exec_pes⟩
  · exact ⟨_, _, _, _, fun _ => ⟨rfl, rfl⟩, exec_pds⟩

/-- Settles O27: the launch, and the row of another command's operation, are the same for the four commands. -/
theorem issuedCommandsAreAcceptedWhenIdle : Obligations.IssuedCommandsAreAcceptedWhenIdle := by
  intro s i _ code hcode
  obtain rfl := decodeCommand_of_encode hcode
  obtain ⟨_, _, _, _, -, hexec⟩ := exec_command_sequence code
  exact ⟨fun hb => (hexec s).trans (sequence_launch hb), fun hb hop => (hexec s).trans (sequence_other hb hop)⟩

/-! ## The stops -/

section Stops
variable {s : State}

theorem sequence_phaseIdle {code : CommandCode} {sizeStep endSize fillStep endFill : State → Out}
    (hb : s.status = .busy) (ho : s.op = code) (hp : s.phase = .idle) :
    sequence code sizeStep endSize fillStep endFill s = .fault .noStepEnabled := by simp [sequence, hb, ho, hp]

/-- A fill pass of a command that has none stops, at the end of the input as before it. -/
theorem sequence_noFill {code : CommandCode} {sizeStep endSize : State → Out} (hb : s.status = .busy)
    (ho : s.op = code) (hp : s.phase = .fill) :
    sequence code sizeStep endSize noStep noStep s = .fault .noStepEnabled := by
  by_cases hi : s.ip < s.inLen
  · exact sequence_fill hb ho hp hi
  · exact sequence_endFill hb ho hp hi

theorem decodedSizeStep_unwritten (h : s.inByte s.ip = none) : decodedSizeStep s = .fault .inputNotWritten := by
  simp [decodedSizeStep, h]

theorem decoderFillStep_unwritten (h : s.inByte s.ip = none) : decoderFillStep s = .fault .inputNotWritten := by
  simp [decoderFillStep, State.fetchPacket, h]

/-- Without its first byte, and with a successor to compare it with, no run scan begins. -/
theorem group_unwritten {x : Nat → Option Byte} {N i : Nat} (h : x i = none) (hi : i + 1 < N) :
    group x N i = none := by
  have hdiffers : differs x N i = none := by simp [differs, Nat.not_le.mpr hi, h]
  simp [group, runScan, runLoop, hdiffers]

/-- No packet is emitted without the first byte it covers. -/
theorem groupBytes_unwritten {x : Nat → Option Byte} {i : Nat} {g : Kind × Nat} (h : x i = none) (hg : 1 ≤ g.2) :
    groupBytes x i g = none := by
  obtain ⟨kind, len⟩ := g
  obtain ⟨n, rfl⟩ : ∃ n, len = n + 1 := ⟨len - 1, (Nat.sub_add_cancel hg).symm⟩
  cases kind with
  | run => simp [groupBytes, h]
  | lit => simp [groupBytes, readBytes, h]

theorem encodedSizeStep_unwritten (h : s.inByte s.ip = none) (hi : s.ip + 1 < s.inLen) :
    encodedSizeStep s = .fault .inputNotWritten := by simp [encodedSizeStep, group_unwritten h hi]

theorem encoderFillStep_unwritten (h : s.inByte s.ip = none) (hi : s.ip < s.inLen) :
    encoderFillStep s = .fault .inputNotWritten := by
  unfold encoderFillStep
  cases hg : group s.inByte s.inLen s.ip with
  | none => rfl
  | some g => simp only [groupBytes_unwritten h (group_bounds hg hi).1]

theorem emit_refused {bytes : List Byte} {covered : Nat} (h : s.outCap < s.wp + bytes.length) :
    s.emit bytes covered = .refused .writeOutsideCapacity := by simp [State.emit, h]

theorem execRun_refused {c : Nat} {v : Byte} (hin : s.ip + 1 < s.inLen) (hcap : s.outCap < s.wp + c) :
    execRun c v s = .refused .writeOutsideCapacity := by
  have hend : ¬ s.payloadPastEnd Config.runPacketBytes := by simp; omega
  rw [execRun, if_neg hend]
  exact emit_refused (by simpa using hcap)

theorem execLit_refused {payload : List Byte} (hin : s.ip + 1 + payload.length ≤ s.inLen)
    (hcap : s.outCap < s.wp + payload.length) : execLit payload s = .refused .writeOutsideCapacity := by
  have hend : ¬ s.payloadPastEnd (Config.headerBytes + payload.length) := by simp; omega
  rw [execLit, if_neg hend]
  exact emit_refused hcap

/-- A command in a phase in which it has no row stops (R81). -/
theorem exec_command_noStep (hb : s.status = .busy)
    (h : s.phase = .idle ∨ (s.phase = .fill ∧ (s.op = 2 ∨ s.op = 3))) :
    exec (decodeCommand s.op) s = .fault .noStepEnabled := by
  obtain ⟨_, _, fillStep, endFill, hfill, hexec⟩ := exec_command_sequence s.op
  rw [hexec]
  rcases h with hp | ⟨hp, hop⟩
  · exact sequence_phaseIdle hb rfl hp
  · obtain ⟨rfl, rfl⟩ := hfill hop
    exact sequence_noFill hb rfl hp

end Stops

/-- Settles O39: every packet step needs the byte at the cursor, a write must fit the capacity, and a command runs
only in a phase that the sequencing table gives it. -/
theorem stopsAreByName : Obligations.StopsAreByName := by
  intro s hb
  refine ⟨fun hi hread => ?_, fun c v => execRun_refused, fun payload => execLit_refused, ?_⟩
  · have hbyte : s.inByte s.ip = none := (inByte_eq hi).trans hread
    refine ⟨fun hp => ⟨fun hop => ?_, fun hop => ?_⟩, fun hp hop => ?_, fun hp hop => ?_,
      fun hp hsucc => ⟨fun hop => ?_, fun hop => ?_⟩⟩
    · exact (exec_dec s).trans ((sequence_size hb hop hp hi).trans (decodedSizeStep_unwritten hbyte))
    · exact (exec_pds s).trans ((sequence_size hb hop hp hi).trans (decodedSizeStep_unwritten hbyte))
    · exact (exec_dec s).trans ((sequence_fill hb hop hp hi).trans (decoderFillStep_unwritten hbyte))
    · exact (exec_enc s).trans ((sequence_fill hb hop hp hi).trans (encoderFillStep_unwritten hbyte hi))
    · exact (exec_enc s).trans ((sequence_size hb hop hp hi).trans (encodedSizeStep_unwritten hbyte hsucc))
    · exact (exec_pes s).trans ((sequence_size hb hop hp hi).trans (encodedSizeStep_unwritten hbyte hsucc))
  · intro i _ hcode hphase
    have hop : i = .pes ∨ i = .pds → s.op = 2 ∨ s.op = 3 := by
      rintro (rfl | rfl)
      · exact .inl (Encoding.opRegister.inj hcode).symm
      · exact .inr (Encoding.opRegister.inj hcode).symm
    rw [decodeCommand_of_encode hcode]
    exact exec_command_noStep hb (hphase.imp_right (And.imp_right hop))

end Sys2Proof.Machine

/-! # What the engine writes in `OUT`, and that it never reads it (R30, R77, R101) -/

namespace Sys2Proof.Machine

/-! ## The bytes of a fill step lie from `wp` up to the new `wp`, within the capacity -/

/-- From `s` to `t` only bytes of `OUT` from the old `wp` up to the new one can have changed, and the new one is within
the capacity (R30, R101). -/
def State.WritesInOrder (s t : State) : Prop :=
  s.wp ≤ t.wp ∧ t.wp ≤ t.outCap ∧ ∀ a, a < s.wp ∨ t.wp ≤ a → t.outMem.read a = s.outMem.read a

section WritesInOrder
variable {s t : State}

theorem emit_writesInOrder {bytes : List Byte} {covered : Nat} (ht : s.emit bytes covered = .next t) :
    s.WritesInOrder t := by
  obtain ⟨hcap, rfl⟩ := emit_next ht
  exact ⟨Nat.le_add_right _ _, hcap, fun _ => read_writeBytes_outside⟩

theorem encoderFillStep_writesInOrder (ht : encoderFillStep s = .next t) : s.WritesInOrder t := by
  obtain ⟨g, bytes, -, -, hcap, rfl⟩ := encoderFillStep_next ht
  exact emit_writesInOrder (emit_eq hcap)

/-- The decoder fill step raises `MalformedStream` or emits. -/
theorem decoderFillStep_writesInOrder (ht : decoderFillStep s = .next t) (hok : t.status ≠ .errMalformed) :
    s.WritesInOrder t := by
  obtain ⟨hd, -, ⟨-, rfl⟩ | ⟨-, bytes, -, -, -, hcap, rfl⟩⟩ := decoderFillStep_next ht
  · exact absurd rfl hok
  · exact emit_writesInOrder (emit_eq hcap)

/-- The end of the fill pass writes nothing, and the invariant has `wp` within the capacity. -/
theorem endFillPass_writesInOrder (h : s.Inv) (hp : s.phase = .fill) : s.WritesInOrder s.endFillPass := by
  obtain ⟨hwp, hcap, -⟩ := h.fill_bound hp
  exact ⟨Nat.le_refl _, Nat.le_trans hwp hcap, fun _ _ => rfl⟩

/-- A fill pass writes in order when its fill step does. -/
theorem fillPass_writesInOrder {code : CommandCode} {sizeStep endSize fillStep : State → Out} (h : s.Inv)
    (hb : s.status = .busy) (hop : s.op = code) (hp : s.phase = .fill)
    (ht : sequence code sizeStep endSize fillStep (fun s => .next s.endFillPass) s = .next t)
    (hfill : fillStep s = .next t → s.WritesInOrder t) : s.WritesInOrder t := by
  by_cases hi : s.ip < s.inLen
  · exact hfill ((sequence_fill hb hop hp hi).symm.trans ht)
  · rw [sequence_endFill hb hop hp hi] at ht
    cases ht
    exact endFillPass_writesInOrder h hp

end WritesInOrder

/-- Settles O51: only `ENC` and `DEC` have a fill pass; each of its steps emits, raises or ends it. -/
theorem writesAreInOrderAndInBounds : Obligations.WritesAreInOrderAndInBounds := by
  intro s t h hhost hb hp ht hok
  rw [step_noMove hhost, engineStep_busy hb] at ht
  rcases h.fill_op hp with hop | hop <;> rw [hop] at ht
  · exact fillPass_writesInOrder h hb hop hp ((exec_enc s).symm.trans ht) encoderFillStep_writesInOrder
  · exact fillPass_writesInOrder h hb hop hp ((exec_dec s).symm.trans ht) fun ht =>
      decoderFillStep_writesInOrder ht hok

/-! ## The contents of `OUT` are never read -/

/-- The same state with another `OUT`. -/
def State.withOut (m : Memory) (s : State) : State := { s with outMem := m }

@[simp] theorem withOut_inByte (m : Memory) (s : State) : (s.withOut m).inByte = s.inByte := rfl
@[simp] theorem withOut_fetchPacket (m : Memory) (s : State) : (s.withOut m).fetchPacket = s.fetchPacket := rfl
@[simp] theorem withOut_inLen (m : Memory) (s : State) : (s.withOut m).inLen = s.inLen := rfl
@[simp] theorem withOut_ip (m : Memory) (s : State) : (s.withOut m).ip = s.ip := rfl
@[simp] theorem withOut_phase (m : Memory) (s : State) : (s.withOut m).phase = s.phase := rfl

/-- The answers from `s` and from `s` with `OUT` replaced by `m` differ in `OUT` alone, and `OUT` fared alike on both
sides: untouched, written with the same bytes from `wp` on (R30), or left without a value by an exception (R109). -/
inductive SameButOut (m : Memory) (s : State) : Out → Out → Prop where
  | untouched {t : State} (hout : t.outMem = s.outMem) (hwp : t.wp ≤ s.wp) :
      SameButOut m s (.next t) (.next (t.withOut m))
  | written {t : State} (bytes : List Byte) (hout : t.outMem = s.outMem.writeBytes s.wp bytes)
      (hwp : t.wp = s.wp + bytes.length) : SameButOut m s (.next t) (.next (t.withOut (m.writeBytes s.wp bytes)))
  | cleared {t : State} (hout : t.outMem = []) : SameButOut m s (.next t) (.next t)
  | fault (r : Fault) : SameButOut m s (.fault r) (.fault r)
  | refused (r : Refusal) : SameButOut m s (.refused r) (.refused r)

/-- The two outcomes are one but for `OUT`. -/
theorem SameButOut.mapNext_eq {m : Memory} {s : State} {o o' : Out} (h : SameButOut m s o o') :
    mapNext (State.withOut []) o' = mapNext (State.withOut []) o := by
  cases h <;> rfl

/-- Bytes of `OUT` from the old `wp` up to the new one are the same, and the others are the same or untouched. -/
theorem SameButOut.read {m : Memory} {s t t' : State} (h : SameButOut m s (.next t) (.next t')) (a : Nat) :
    (s.wp ≤ a → a < t.wp → t'.outMem.read a = t.outMem.read a) ∧
      (t'.outMem.read a = t.outMem.read a ∨
        (t.outMem.read a = s.outMem.read a ∧ t'.outMem.read a = m.read a)) := by
  cases h with
  | untouched hout hwp => exact ⟨fun hlo hhi => by omega, .inr ⟨by rw [hout], rfl⟩⟩
  | written bytes hout hwp =>
    have hread : (t.withOut (m.writeBytes s.wp bytes)).outMem.read a = (m.writeBytes s.wp bytes).read a := rfl
    rw [hread, hout, hwp, read_writeBytes, read_writeBytes]
    by_cases ha : s.wp ≤ a ∧ a < s.wp + bytes.length
    · simp [ha]
    · exact ⟨fun hlo hhi => absurd ⟨hlo, hhi⟩ ha, .inr ⟨if_neg ha, if_neg ha⟩⟩
  | cleared => exact ⟨fun _ _ => rfl, .inl rfl⟩

/-- `f` answers from `s` with `OUT` replaced by `m` what it answers from `s`, but for `OUT`. -/
def IgnoresOut (m : Memory) (f : State → Out) (s : State) : Prop := SameButOut m s (f s) (f (s.withOut m))

theorem IgnoresOut.ite {m : Memory} {s : State} {p : State → Prop} [DecidablePred p] {f g : State → Out}
    (hp : p (s.withOut m) ↔ p s) (hf : IgnoresOut m f s) (hg : IgnoresOut m g s) :
    IgnoresOut m (fun s => if p s then f s else g s) s := by
  by_cases h : p s
  · simpa only [IgnoresOut, if_pos h, if_pos (hp.mpr h)] using hf
  · simpa only [IgnoresOut, if_neg h, if_neg (mt hp.mp h)] using hg

section OutNotRead
variable {m : Memory} {s : State}

theorem raise_ignoresOut (e : CodecError) : IgnoresOut m (fun s => .next (s.raise e)) s := .cleared rfl

theorem emit_ignoresOut (bytes : List Byte) (covered : Nat) : IgnoresOut m (State.emit · bytes covered) s :=
  .ite Iff.rfl (.written bytes rfl rfl) (.refused _)

theorem execRun_ignoresOut (c : Nat) (v : Byte) : IgnoresOut m (execRun c v) s :=
  .ite Iff.rfl (raise_ignoresOut _) (emit_ignoresOut _ _)

theorem execLit_ignoresOut (payload : List Byte) : IgnoresOut m (execLit payload) s :=
  .ite Iff.rfl (raise_ignoresOut _) (emit_ignoresOut _ _)

theorem encodedSizeStep_ignoresOut : IgnoresOut m encodedSizeStep s := by
  simp only [IgnoresOut, encodedSizeStep, withOut_inByte, withOut_inLen, withOut_ip]
  cases group s.inByte s.inLen s.ip with
  | none => exact .fault _
  | some g => exact .untouched rfl (Nat.le_refl _)

theorem decodedSizeStep_ignoresOut : IgnoresOut m decodedSizeStep s := by
  simp only [IgnoresOut, decodedSizeStep, withOut_inByte, withOut_ip]
  cases s.inByte s.ip with
  | none => exact .fault _
  | some h => exact .untouched rfl (Nat.le_refl _)

theorem encoderFillStep_ignoresOut : IgnoresOut m encoderFillStep s := by
  simp only [IgnoresOut, encoderFillStep, withOut_inByte, withOut_inLen, withOut_ip]
  cases group s.inByte s.inLen s.ip with
  | none => exact .fault _
  | some g =>
    cases hb : groupBytes s.inByte s.ip g with
    | none => simpa only [hb] using SameButOut.fault _
    | some bytes =>
      simp only [hb]
      exact emit_ignoresOut bytes g.2

theorem decoderFillStep_ignoresOut : IgnoresOut m decoderFillStep s := by
  simp only [IgnoresOut, decoderFillStep, withOut_fetchPacket]
  cases s.fetchPacket with
  | packet i =>
    cases i with
    | run c v => exact execRun_ignoresOut c v
    | lit payload => exact execLit_ignoresOut payload
    | enc | dec | pes | pds => exact .fault _
  | truncated => exact raise_ignoresOut _
  | unwritten => exact .fault _

/-- The end of the size pass clears `OUT` or goes on with `wp` at 0. -/
theorem endSizePass_ignoresOut : IgnoresOut m (fun s => .next s.endSizePass) s := by
  have branches : IgnoresOut m (fun s => if s.capacityExceeded then .next (s.raise .allocationFailure)
      else .next { s with phase := .fill, ip := 0, wp := 0 }) s :=
    .ite Iff.rfl (raise_ignoresOut _) (.untouched rfl (Nat.zero_le _))
  simpa only [IgnoresOut, State.endSizePass, apply_ite Host.Outcome.next] using branches

theorem endPrediction_ignoresOut : IgnoresOut m (fun s => .next s.endPrediction) s := .untouched rfl (Nat.le_refl _)

theorem endFillPass_ignoresOut : IgnoresOut m (fun s => .next s.endFillPass) s := .untouched rfl (Nat.le_refl _)

theorem noStep_ignoresOut : IgnoresOut m noStep s := .fault _

/-- A row of the sequencing table reads `OUT` in none of its conditions; the launch sets `wp` to 0. -/
theorem sequence_ignoresOut {code : CommandCode} {sizeStep endSize fillStep endFill : State → Out}
    (hsize : IgnoresOut m sizeStep s) (hendSize : IgnoresOut m endSize s) (hfill : IgnoresOut m fillStep s)
    (hendFill : IgnoresOut m endFill s) : IgnoresOut m (sequence code sizeStep endSize fillStep endFill) s := by
  refine .ite Iff.rfl (.ite Iff.rfl ?_ (.untouched rfl (Nat.le_refl _))) (.untouched rfl (Nat.zero_le _))
  cases hp : s.phase with
  | idle => simpa only [IgnoresOut, withOut_phase, hp] using SameButOut.fault _
  | size => simpa only [IgnoresOut, withOut_phase, hp] using IgnoresOut.ite (p := State.moreInput) Iff.rfl hsize hendSize
  | fill => simpa only [IgnoresOut, withOut_phase, hp] using IgnoresOut.ite (p := State.moreInput) Iff.rfl hfill hendFill

theorem exec_ignoresOut (i : Instr) : IgnoresOut m (exec i) s := by
  cases i with
  | run c v => exact execRun_ignoresOut c v
  | lit payload => exact execLit_ignoresOut payload
  | enc =>
    exact sequence_ignoresOut encodedSizeStep_ignoresOut endSizePass_ignoresOut encoderFillStep_ignoresOut
      endFillPass_ignoresOut
  | dec =>
    exact sequence_ignoresOut decodedSizeStep_ignoresOut endSizePass_ignoresOut decoderFillStep_ignoresOut
      endFillPass_ignoresOut
  | pes =>
    exact sequence_ignoresOut encodedSizeStep_ignoresOut endPrediction_ignoresOut noStep_ignoresOut noStep_ignoresOut
  | pds =>
    exact sequence_ignoresOut decodedSizeStep_ignoresOut endPrediction_ignoresOut noStep_ignoresOut noStep_ignoresOut

end OutNotRead

/-- Settles O53: the two outcomes are the same but for `OUT`, and `OUT` fares alike in both. -/
theorem outIsNeverRead : Obligations.OutIsNeverRead := by
  intro i s m
  have h : SameButOut m s (exec i s) (exec i { s with outMem := m }) := exec_ignoresOut i
  refine ⟨h.mapNext_eq, fun t t' ht ht' a => ?_⟩
  rw [ht, ht'] at h
  exact h.read a

end Sys2Proof.Machine

/-! # The encodings (R12, R42 to R49, R55, R104)

A well-formed packet's header tells its kind and its length, so the packet is read back from the front of any stream
that begins with its bytes; and what is read from a stream stood there. -/

namespace Sys2Proof.Machine

/-! ## A packet from its bytes and from the stream it opens -/

theorem wellFormed_run_iff {c : Nat} {v : Byte} : (Instr.run c v).wellFormed = true ↔ 1 ≤ c ∧ c ≤ 128 := by
  simp [Instr.wellFormed]

theorem wellFormed_lit_iff {payload : List Byte} :
    (Instr.lit payload).wellFormed = true ↔ 1 ≤ payload.length ∧ payload.length ≤ 128 := by
  simp [Instr.wellFormed]

theorem packetBytes_run (c : Nat) (v : Byte) : packetBytes (.run c v) = [runHeaderBits c, v] := rfl

theorem packetBytes_lit (payload : List Byte) :
    packetBytes (.lit payload) = literalHeaderBits payload.length :: payload := rfl

/-- The header of a well-formed packet is read as that packet's, whatever follows the packet (R48). -/
theorem decodePacket_packetBytes_append {i : Instr} (hp : isPacket i = true) (hw : i.wellFormed = true)
    (rest : List Byte) : decodePacket (packetBytes i ++ rest) = .ok (i, rest) := by
  cases i with
  | run c v =>
    obtain ⟨h1, h128⟩ := wellFormed_run_iff.mp hw
    obtain ⟨hrun, hcount⟩ := runHeaderBits_fields c h1 h128
    simpa [packetBytes_run, hcount] using decodePacket_run (v := v) (rest := rest) hrun
  | lit payload =>
    obtain ⟨h1, h128⟩ := wellFormed_lit_iff.mp hw
    obtain ⟨hlit, hcount⟩ := literalHeaderBits_fields payload.length h1 h128
    have henough : count (literalHeaderBits payload.length) ≤ (payload ++ rest).length := by simp [hcount]
    simpa [packetBytes_lit, hcount] using decodePacket_lit hlit henough
  | enc | dec | pes | pds => cases hp

/-- A packet's bits stand in the stream (R46). -/
theorem encode_of_isPacket {i : Instr} (hp : isPacket i = true) : encode i = .stream (packetBytes i) := by
  cases i with
  | run c v => rfl
  | lit payload => rfl
  | enc | dec | pes | pds => cases hp

theorem decode_encode_of_isPacket {i : Instr} (hp : isPacket i = true) (hw : i.wellFormed = true) :
    decode (encode i) = .ok (i, []) := by
  rw [encode_of_isPacket hp]
  simpa [decode] using decodePacket_packetBytes_append hp hw []

/-- Settles O4: a packet is read back with nothing after it, and a command's code selects it. -/
theorem decodeOfEncodeIsTheInstruction : Obligations.DecodeOfEncodeIsTheInstruction := by
  intro i hw
  cases i with
  | run c v => exact decode_encode_of_isPacket rfl hw
  | lit payload => exact decode_encode_of_isPacket rfl hw
  | enc | dec | pes | pds => rfl

/-- Settles O5: a header is the one its own kind and count generate, and its count is in range. -/
theorem readPacketStoodInTheStream : Obligations.ReadPacketStoodInTheStream := by
  intro bytes rest i h
  obtain ⟨hd, tl, rfl, ⟨hrun, v, rfl, rfl⟩ | ⟨hlit, henough, rfl, rfl⟩⟩ := decodePacket_ok h
  · refine ⟨rfl, wellFormed_run_iff.mpr ⟨count_pos hd, count_le hd⟩, ?_⟩
    simp [packetBytes_run, runHeaderBits_count hd hrun]
  · have hlen : (tl.take (count hd)).length = count hd := List.length_take_of_le henough
    refine ⟨rfl, wellFormed_lit_iff.mpr (by rw [hlen]; exact ⟨count_pos hd, count_le hd⟩), ?_⟩
    simp [packetBytes_lit, hlen, literalHeaderBits_count hd hlit]

/-! ## A stream of packets -/

/-- The packets of a stream are its first packet and the packets of the bytes after it. -/
theorem decodeStream_of_decodePacket {bytes rest : List Byte} {i : Instr} (h : decodePacket bytes = .ok (i, rest))
    (fuel : Nat) : decodeStream (fuel + 1) bytes = (decodeStream fuel rest).map (i :: ·) := by
  cases bytes with
  | nil => cases h
  | cons hd tl => simp [decodeStream, h]

/-- Settles O6, by induction over the packets: the bytes of the first are followed by the stream of the others. -/
theorem streamOfPacketsParsesBack : Obligations.StreamOfPacketsParsesBack := by
  intro packets hall
  induction packets with
  | nil => rfl
  | cons p ps ih =>
    obtain ⟨⟨hp, hw⟩, hps⟩ := List.forall_mem_cons.mp hall
    have hfirst : decodePacket (encodeStream (p :: ps)) = .ok (p, encodeStream ps) :=
      decodePacket_packetBytes_append hp hw (encodeStream ps)
    rw [List.length_cons, decodeStream_of_decodePacket hfirst, ih hps, Option.map_some]

/-! ## What is rejected -/

/-- A packet cut short is rejected by what it misses: a run its value, a literal its payload (R104). -/
theorem decodePacket_cut {h : Byte} {rest : List Byte} (hcut : rest.length + 1 < packetSize h) :
    decodePacket (h :: rest) =
      .error (if isRun h then .missingValue else .missingPayload (count h) rest.length) := by
  cases hr : isRun h with
  | true =>
    rw [packetSize_run hr] at hcut
    obtain rfl : rest = [] := List.eq_nil_of_length_eq_zero (by omega)
    simp [decodePacket, hr]
  | false =>
    rw [packetSize_lit hr] at hcut
    have hshort : rest.length < count h := by omega
    simp [decodePacket, hr, hshort]

/-- Settles O7: a stream opens with a packet cut short, a run or a literal, and the last two are read. -/
theorem onlyTruncationIsRejected : Obligations.OnlyTruncationIsRejected := by
  refine ⟨rfl, fun h rest => ⟨fun henough => ?_, decodePacket_cut⟩⟩
  obtain hcut | ⟨hrun, v, tl, rfl⟩ | ⟨hlit, payload, tl, hlen, rfl⟩ := stream_cases h rest
  · omega
  · exact ⟨_, _, decodePacket_run hrun⟩
  · exact ⟨_, _, decodePacket_lit hlit (by simp [hlen])⟩

/-- Settles O9: each word is what the encoder gives for its instruction. -/
theorem writtenOutWordsDecode : Obligations.WrittenOutWordsDecode :=
  ⟨decodeOfEncodeIsTheInstruction (.run 3 7) rfl, decodeOfEncodeIsTheInstruction (.run 128 0xAA) rfl,
    decodeOfEncodeIsTheInstruction (.run 1 0x55) rfl, decodeOfEncodeIsTheInstruction (.lit [1, 2, 3]) rfl,
    decodeOfEncodeIsTheInstruction .pds rfl⟩

end Sys2Proof.Machine

/-! # The headers by their numbers (R50 to R55)

The byte of number `b` is a run header exactly for `128 ≤ b`, and its length field is `b % 128`; the header generated for
a length `n` is the byte of number `n % 128`, with 128 added for a run. -/

namespace Sys2Proof.Machine

/-! ## The parser and the generator as arithmetic on the byte's number -/

/-- Bit 7 is the bit of weight 128 (R52). -/
theorem isRun_iff_le_toNat {h : Byte} : isRun h = true ↔ 128 ≤ h.toNat := by
  have hall : ∀ h : Byte, isRun h = true ↔ 128 ≤ h.toNat := by decide
  exact hall h

theorem stored_eq_toNat_mod (h : Byte) : stored h = h.toNat % 128 := by
  rw [stored, BitVec.toNat_and]
  exact Nat.and_two_pow_sub_one_eq_mod h.toNat 7

theorem count_eq_of_stored_eq {h : Byte} {n : Nat} (hs : stored h = n) : count h = if n = 0 then 128 else n := by
  rw [count, hs, ite_not]

theorem literalHeaderBits_toNat (n : Nat) : (literalHeaderBits n).toNat = n % 128 := by
  have hlow : (literalHeaderBits n).toNat = n % 256 % 128 := stored_eq_toNat_mod (BitVec.ofNat 8 n)
  omega

/-- The run bit is above the length field, so setting it adds 128 (R50). -/
theorem runHeaderBits_toNat (n : Nat) : (runHeaderBits n).toNat = 128 + n % 128 := by
  have hbits : (runHeaderBits n).toNat = 2 ^ 7 ||| (literalHeaderBits n).toNat := BitVec.toNat_or ..
  rw [hbits, literalHeaderBits_toNat]
  exact (Nat.two_pow_add_eq_or_of_lt (i := 7) (Nat.mod_lt n (by decide)) 1).symm

theorem runHeader_eq_some_iff {n : Nat} {h : Byte} :
    runHeader n = some h ↔ (2 ≤ n ∧ n ≤ 128) ∧ runHeaderBits n = h := by
  simp [runHeader]

theorem literalHeader_eq_some_iff {n : Nat} {h : Byte} :
    literalHeader n = some h ↔ (1 ≤ n ∧ n ≤ 128) ∧ literalHeaderBits n = h := by
  simp [literalHeader]

/-! ## The statements -/

/-- Settles O1: the flag and the length field of the bytes `n` and `128 + n`; their counts and sizes follow. -/
theorem headerFieldsOfEveryByte : Obligations.HeaderFieldsOfEveryByte := by
  intro n hn
  have hlow : (BitVec.ofNat 8 n).toNat = n := by
    rw [BitVec.toNat_ofNat, Nat.mod_eq_of_lt (by omega)]
  have hhigh : (BitVec.ofNat 8 (128 + n)).toNat = 128 + n := by
    rw [BitVec.toNat_ofNat, Nat.mod_eq_of_lt (by omega)]
  have hlit : isRun (BitVec.ofNat 8 n) = false := by
    rw [← Bool.not_eq_true, isRun_iff_le_toNat, hlow]
    omega
  have hrun : isRun (BitVec.ofNat 8 (128 + n)) = true := by
    rw [isRun_iff_le_toNat, hhigh]
    omega
  have hstoredLit : stored (BitVec.ofNat 8 n) = n := by
    rw [stored_eq_toNat_mod, hlow, Nat.mod_eq_of_lt hn]
  have hstoredRun : stored (BitVec.ofNat 8 (128 + n)) = n := by
    rw [stored_eq_toNat_mod, hhigh, Nat.add_mod_left, Nat.mod_eq_of_lt hn]
  have hcountLit := count_eq_of_stored_eq hstoredLit
  refine ⟨hlit, hrun, hstoredLit, hstoredRun, hcountLit, count_eq_of_stored_eq hstoredRun, ?_, packetSize_run hrun⟩
  rw [packetSize_lit hlit, hcountLit]

/-- Settles O2: inside the domain a header is the generated byte, which its number determines. -/
theorem headerGeneratorHasItsDomain : Obligations.HeaderGeneratorHasItsDomain := by
  intro n h
  constructor
  · rw [runHeader_eq_some_iff, ← BitVec.toNat_inj, runHeaderBits_toNat, and_assoc, eq_comm (b := h.toNat)]
  · rw [literalHeader_eq_some_iff, ← BitVec.toNat_inj, literalHeaderBits_toNat, and_assoc, eq_comm (b := h.toNat)]

/-- Settles O3: the parser reads the length from the bits generated for it, and a header is the bits of its count. -/
theorem headerGeneratorAndParserAreInverse : Obligations.HeaderGeneratorAndParserAreInverse := by
  refine ⟨fun n h2 h128 => ?_, fun n h1 h128 => ?_, fun h hrun h2 => ?_, fun h hlit => ?_⟩
  · exact ⟨runHeaderBits n, runHeader_eq h2 h128, runHeaderBits_fields n (by omega) h128⟩
  · exact ⟨literalHeaderBits n, literalHeader_eq h1 h128, literalHeaderBits_fields n h1 h128⟩
  · rw [runHeader_eq h2 (count_le h), runHeaderBits_count h hrun]
  · rw [literalHeader_eq (count_pos h) (count_le h), literalHeaderBits_count h hlit]

end Sys2Proof.Machine

/-! # The Size Predictor (R57 to R64, R80 to R82, R84, R102)

A size step charges one packet to `acc` and moves the cursor past it, so what has been charged and what is left make the
predicted size. A size pass therefore charges, step by step, all that is left at its cursor; `PES` and `PDS` answer with
what their pass has charged from the launch on. -/

namespace Sys2Proof.Machine

/-! ## One size step (R59, R62) -/

theorem groupSize_eq_ite (kind : Kind) (len : Nat) :
    groupSize (kind, len) = if kind = .run then 2 else 1 + len := by cases kind <;> rfl

section SizeStep
variable {s : State} {x : List Byte}

theorem encodedSizeStep_of_group {g : Kind × Nat} (hg : group s.inByte s.inLen s.ip = some g) :
    encodedSizeStep s = .next (s.chargeSize (groupSize g) (s.ip + g.2)) := by simp [encodedSizeStep, hg]

theorem decodedSizeStep_of_header {hd : Byte} (hh : s.inByte s.ip = some hd) :
    decodedSizeStep s = .next (s.chargeSize (count hd) (min (s.ip + packetSize hd) s.inLen)) := by
  simp [decodedSizeStep, hh]

variable {code : CommandCode}

/-- Before the end of the input the size pass of `ENC` and of `PES` takes the encoded-size step. -/
theorem exec_encodedSizeStep (hcode : code = 0 ∨ code = 2) (hb : s.status = .busy) (hop : s.op = code)
    (hp : s.phase = .size) (hi : s.ip < s.inLen) : exec (decodeCommand code) s = encodedSizeStep s := by
  rcases hcode with rfl | rfl
  · exact (exec_enc s).trans (sequence_size hb hop hp hi)
  · exact (exec_pes s).trans (sequence_size hb hop hp hi)

/-- Before the end of the input the size pass of `DEC` and of `PDS` takes the decoded-size step. -/
theorem exec_decodedSizeStep (hcode : code = 1 ∨ code = 3) (hb : s.status = .busy) (hop : s.op = code)
    (hp : s.phase = .size) (hi : s.ip < s.inLen) : exec (decodeCommand code) s = decodedSizeStep s := by
  rcases hcode with rfl | rfl
  · exact (exec_dec s).trans (sequence_size hb hop hp hi)
  · exact (exec_pds s).trans (sequence_size hb hop hp hi)

/-- A whole input agrees with what has been written of it. -/
theorem inputAgrees_of_input (hx : s.input = some x) : s.InputAgrees x :=
  ⟨length_of_input hx, fun a _ hab => ((input_eq_some.mp hx).2 a).symm.trans hab⟩

/-- At the end of the input nothing is left, whatever the command. -/
theorem remainingSize_past (code : CommandCode) {i : Nat} (hi : x.length ≤ i) : remainingSize code x i = 0 := by
  rcases op_cases code with rfl | rfl | rfl | rfl
  case inl | inr.inr.inl => exact pesFrom_end hi
  case inr.inl | inr.inr.inr => exact pdsFrom_end hi

/-- At the end of the size pass `acc` is all there was to charge. -/
theorem State.Inv.acc_at_end (h : s.Inv) (hp : s.phase = .size) (hend : s.ip = s.inLen) (hx : s.input = some x) :
    s.acc = remainingSize s.op x 0 := by
  have hexact := h.size_exact hp x (inputAgrees_of_input hx)
  rwa [remainingSize_past s.op (length_of_input hx ▸ hend.ge), Nat.add_zero] at hexact

end SizeStep

/-- Settles O28: the step charges the group at the cursor, whose bytes the input has; the end is the invariant's. -/
theorem encodedSizeStepChargesOnePacket : Obligations.EncodedSizeStepChargesOnePacket := by
  constructor
  · rintro s x kind len hb hp hi hx hg t rfl
    rw [← inByte_of_input hx, length_of_input hx] at hg
    obtain ⟨-, -, hend, -⟩ := group_bounds hg hi
    have hstep := encodedSizeStep_of_group hg
    rw [groupSize_eq_ite] at hstep
    exact ⟨fun hop => (exec_encodedSizeStep (.inl rfl) hb hop hp hi).trans hstep,
      fun hop => (exec_encodedSizeStep (.inr rfl) hb hop hp hi).trans hstep, hend⟩
  · intro s x h hp hend hx hop
    rw [h.acc_at_end hp hend hx]
    exact remainingSize_of_encoding hop x 0

/-- Settles O29: the step charges what the header at the cursor declares; the end is the invariant's. -/
theorem decodedSizeStepChargesOnePacket : Obligations.DecodedSizeStepChargesOnePacket := by
  constructor
  · rintro s hd hb hp hi hread t rfl
    have hstep := decodedSizeStep_of_header ((inByte_eq hi).trans hread)
    exact ⟨fun hop => (exec_decodedSizeStep (.inl rfl) hb hop hp hi).trans hstep,
      fun hop => (exec_decodedSizeStep (.inr rfl) hb hop hp hi).trans hstep⟩
  · intro s y h hp hend hy hop
    rw [h.acc_at_end hp hend hy]
    exact remainingSize_of_decoding hop y 0

/-! ## Runs of a busy engine -/

/-- `k` steps lead from `s` to `t`, and the engine is `BUSY` before each of them. -/
inductive State.RunsBusy : State → Nat → State → Prop where
  | refl (s : State) : RunsBusy s 0 s
  | cons {s u t : State} {k : Nat} (hb : s.status = .busy) (hs : step s = .next u) (hrest : RunsBusy u k t) :
      RunsBusy s (k + 1) t

section RunsBusy
variable {s t u : State} {k : Nat}

theorem core_run_succ (M : Host.Core) {a b : M.State} (h : M.step a = .next b) (k : Nat) :
    M.run (k + 1) a = M.run k b := by rw [Host.Core.run, h]

theorem runFor_succ (h : step s = .next u) (k : Nat) : runFor (k + 1) s = runFor k u :=
  core_run_succ Sys2Proof.core h k

theorem State.RunsBusy.runFor_eq (h : s.RunsBusy k t) : runFor k s = .next t := by
  induction h with
  | refl s => rfl
  | cons hb hs hrest ih => exact (runFor_succ hs _).trans ih

theorem State.RunsBusy.busy_before (h : s.RunsBusy k t) (j : Nat) (hj : j < k) :
    ∃ u, runFor j s = .next u ∧ u.status = .busy := by
  induction h generalizing j with
  | refl s => omega
  | @cons s u t k hb hs hrest ih =>
    cases j with
    | zero => exact ⟨s, rfl, hb⟩
    | succ j =>
      rw [runFor_succ hs]
      exact ih j (by omega)

/-- One more step at the end of a run. -/
theorem State.RunsBusy.snoc (h : s.RunsBusy k t) (hb : t.status = .busy) (hs : step t = .next u) :
    s.RunsBusy (k + 1) u := by
  induction h with
  | refl s => exact .cons hb hs (.refl u)
  | cons hb' hs' hrest ih => exact .cons hb' hs' (ih hb hs)

end RunsBusy

/-! ## The size pass -/

/-- A size pass over the input `x`, with a host that makes no move. -/
structure State.SizePass (s : State) (x : List Byte) : Prop where
  busy : s.status = .busy
  phase : s.phase = .size
  host : s.host = []
  input : s.input = some x
  ip_le : s.ip ≤ s.inLen

section SizePass
variable {s : State} {x : List Byte}

/-- A launch begins a size pass (R80). -/
theorem sizePass_begin (hhost : s.host = []) (hx : s.input = some x) (code : CommandCode) :
    { s with op := code }.begin.SizePass x where
  busy := rfl
  phase := rfl
  host := hhost
  input := hx
  ip_le := Nat.zero_le _

theorem State.SizePass.chargeSize (h : s.SizePass x) {next : Nat} (hnext : next ≤ s.inLen) (size : Nat) :
    (s.chargeSize size next).SizePass x where
  busy := h.busy
  phase := h.phase
  host := h.host
  input := h.input
  ip_le := hnext

theorem State.SizePass.step_eq (h : s.SizePass x) : step s = exec (decodeCommand s.op) s :=
  (step_noMove h.host).trans (engineStep_busy h.busy)

/-- Before the end of the input a step charges the packet at the cursor and moves past it (R59, R62). -/
theorem State.SizePass.step_charges (h : s.SizePass x) (hi : s.ip < s.inLen) :
    ∃ size next, step s = .next (s.chargeSize size next) ∧ s.ip < next ∧ next ≤ s.inLen ∧
      remainingSize s.op x s.ip = size + remainingSize s.op x next := by
  have hagrees := inputAgrees_of_input h.input
  have hbytes : ∀ j, j < s.inLen → (s.inByte j).isSome := by
    rw [inByte_of_input h.input, ← length_of_input h.input]
    exact fun _ => bytesOf_isSome
  have hkind : (s.op = 0 ∨ s.op = 2) ∨ (s.op = 1 ∨ s.op = 3) := by
    have := op_cases s.op
    tauto
  rcases hkind with hop | hop
  · obtain ⟨g, hg⟩ := Option.isSome_iff_exists.mp (group_isSome (i := s.ip) hbytes)
    obtain ⟨hpos, -, hend, -⟩ := group_bounds hg hi
    have hexec := exec_encodedSizeStep hop h.busy rfl h.phase hi
    exact ⟨_, _, h.step_eq.trans (hexec.trans (encodedSizeStep_of_group hg)), by omega, hend,
      remainingSize_group hagrees hop hi hg⟩
  · obtain ⟨hd, hh⟩ := Option.isSome_iff_exists.mp (hbytes s.ip hi)
    have hpacket := two_le_packetSize hd
    have hexec := exec_decodedSizeStep hop h.busy rfl h.phase hi
    exact ⟨_, _, h.step_eq.trans (hexec.trans (decodedSizeStep_of_header hh)), by omega, Nat.min_le_right _ _,
      remainingSize_header hagrees hop hh⟩

/-- A size pass runs, by at most one step for each byte that is left, to the end of the input, and charges all that is
left of the predicted size. -/
theorem State.SizePass.runs (h : s.SizePass x) :
    ∃ k, k ≤ s.inLen - s.ip ∧ s.RunsBusy k (s.chargeSize (remainingSize s.op x s.ip) s.inLen) := by
  induction hleft : s.inLen - s.ip using Nat.strong_induction_on generalizing s with
  | _ left ih =>
    by_cases hi : s.ip < s.inLen
    · obtain ⟨size, next, hstep, hlt, hle, hsize⟩ := h.step_charges hi
      obtain ⟨k, hk, hrun⟩ := ih (s.inLen - next) (by omega) (h.chargeSize hle size) rfl
      have hsum : (s.chargeSize size next).chargeSize (remainingSize s.op x next) s.inLen =
          s.chargeSize (remainingSize s.op x s.ip) s.inLen := by
        simp [State.chargeSize, hsize, Nat.add_assoc]
      exact ⟨k + 1, by omega, .cons h.busy hstep (hsum ▸ hrun)⟩
    · have hip : s.ip = s.inLen := Nat.le_antisymm h.ip_le (Nat.not_lt.mp hi)
      have hnone : remainingSize s.op x s.ip = 0 := remainingSize_past s.op (by rw [length_of_input h.input, hip])
      have hsame : s.chargeSize 0 s.inLen = s := by rw [← hip]; rfl
      exact ⟨0, Nat.zero_le _, by rw [hnone, hsame]; exact .refl s⟩

end SizePass

/-! ## The operations of `PES` and `PDS` (R60, R64) -/

section Prediction
variable {s : State} {code : CommandCode}

/-- A command issued while no operation runs is launched (R80). -/
theorem exec_launch (code : CommandCode) (hb : s.status ≠ .busy) :
    exec (decodeCommand code) s = .next { s with op := code }.begin := by
  obtain ⟨_, _, _, _, -, hexec⟩ := exec_command_sequence code
  exact (hexec s).trans (sequence_launch hb)

/-- At the end of the input `PES` and `PDS` answer with `acc` (R82, first branch). -/
theorem exec_endPrediction (hcode : code = 2 ∨ code = 3) (hb : s.status = .busy) (hop : s.op = code)
    (hp : s.phase = .size) (hend : ¬ s.ip < s.inLen) : exec (decodeCommand code) s = .next s.endPrediction := by
  rcases hcode with rfl | rfl
  · exact (exec_pes s).trans (sequence_endSize hb hop hp hend)
  · exact (exec_pds s).trans (sequence_endSize hb hop hp hend)

/-- Both predictors at once: the launch, the size pass, and one step that ends the operation with what the pass has
charged. -/
theorem prediction_operation {x : List Byte} (hcode : code = 2 ∨ code = 3) (hb : s.status ≠ .busy)
    (hhost : s.host = []) (hx : s.input = some x) :
    s.Operation (decodeCommand code) fun t =>
      t.status = .done ∧ t.result = remainingSize code x 0 ∧ t.outMem = s.outMem ∧ s.SameInput t ∧ t.op = code := by
  have hpass := sizePass_begin hhost hx code
  obtain ⟨k, hk, hrun⟩ := hpass.runs
  have hcharged := hpass.chargeSize (Nat.le_refl _) (remainingSize code x 0)
  have hlast := hcharged.step_eq.trans
    (exec_endPrediction hcode hcharged.busy rfl hcharged.phase (Nat.lt_irrefl _))
  have hwhole := hrun.snoc hcharged.busy hlast
  have hbound : k ≤ s.inLen := hk
  exact ⟨_, k + 1, _, exec_launch code hb, by omega, hwhole.runFor_eq, hwhole.busy_before, by simp, rfl,
    Nat.zero_add _, rfl, ⟨rfl, rfl, rfl⟩, rfl⟩

end Prediction

/-- Settles O56: the size pass of `PES` charges `pes x`. -/
theorem pesOperation : Obligations.PesOperation := fun _ _ => prediction_operation (.inl rfl)

/-- Settles O57: the size pass of `PDS` charges `pds y`, whether or not the last packet is cut short. -/
theorem pdsOperation : Obligations.PdsOperation := fun _ _ => prediction_operation (.inr rfl)

end Sys2Proof.Machine

/-! # The scanner and the grouper on a byte sequence (R65 to R68)

A byte source that agrees with a byte sequence below its length is scanned as the byte sequence itself, and there the
bounded comparison is a comparison of two bytes of it. -/

namespace Sys2Proof.Machine

/-! ## A source that agrees with a byte sequence below its length -/

section Agrees
variable {x : List Byte} {src : Nat → Option Byte}

theorem extends_of_agrees (hsrc : ∀ j, j < x.length → src j = x[j]?) : Extends (bytesOf x) src :=
  fun j _ hj => (hsrc j (List.getElem?_eq_some_iff.mp hj).1).trans hj

theorem runScan_bytesOf_isSome (x : List Byte) (i : Nat) : (runScan (bytesOf x) x.length i).isSome :=
  runLoop_isSome (fun _ => bytesOf_isSome) _ _

theorem litScan_bytesOf_isSome (x : List Byte) (i : Nat) : (litScan (bytesOf x) x.length i).isSome :=
  litLoop_isSome (fun _ => bytesOf_isSome) _ _

theorem runScan_of_agrees (hsrc : ∀ j, j < x.length → src j = x[j]?) (i : Nat) :
    runScan src x.length i = runScan (bytesOf x) x.length i := by
  obtain ⟨r, hr⟩ := Option.isSome_iff_exists.mp (runScan_bytesOf_isSome x i)
  exact (runLoop_mono (extends_of_agrees hsrc) hr).trans hr.symm

theorem litScan_of_agrees (hsrc : ∀ j, j < x.length → src j = x[j]?) (i : Nat) :
    litScan src x.length i = litScan (bytesOf x) x.length i := by
  obtain ⟨l, hl⟩ := Option.isSome_iff_exists.mp (litScan_bytesOf_isSome x i)
  exact (litLoop_mono (extends_of_agrees hsrc) hl).trans hl.symm

theorem group_of_agrees (hsrc : ∀ j, j < x.length → src j = x[j]?) (i : Nat) :
    group src x.length i = group (bytesOf x) x.length i := by
  simp only [group, runScan_of_agrees hsrc, litScan_of_agrees hsrc]

end Agrees

/-! ## The bounded comparison of a byte sequence -/

section Differs
variable {x : List Byte} {j : Nat}

theorem differs_bytesOf_false_iff :
    differs (bytesOf x) x.length j = some false ↔ j + 1 < x.length ∧ x[j]? = x[j + 1]? := by
  rw [differs_false_iff]
  refine and_congr_right fun hj => ?_
  simp [bytesOf, hj, Nat.lt_of_succ_lt hj, eq_comm]

theorem differs_bytesOf_true (h : differs (bytesOf x) x.length j = some true) (hj : j + 1 < x.length) :
    x[j]? ≠ x[j + 1]? := by
  intro heq
  rw [differs_bytesOf_false_iff.mpr ⟨hj, heq⟩] at h
  cases h

end Differs

/-- A run of at least two bytes is found exactly where a byte equals its successor. -/
theorem two_le_runScan_iff {x : Nat → Option Byte} {N i r : Nat} (h : runScan x N i = some r) :
    2 ≤ r ↔ differs x N i = some false := by
  obtain ⟨hpos, -, hequal, hstop⟩ := runScan_spec h
  constructor
  · intro h2
    exact hequal 0 h2
  · intro hd
    by_contra h2
    obtain rfl : r = 1 := by omega
    simp [hd] at hstop

/-! ## The statements -/

/-- Settles O10: a run one byte longer would have to cross the difference at which the scan stopped. -/
theorem runScanFindsTheGreatestRun : Obligations.RunScanFindsTheGreatestRun := by
  intro x src i hsrc hi
  obtain ⟨r, hr⟩ := Option.isSome_iff_exists.mp (runScan_bytesOf_isSome x i)
  obtain ⟨hpos, hcap, -, hstop⟩ := runScan_spec hr
  have hend := runScan_le hr hi
  refine ⟨r, (runScan_of_agrees hsrc i).trans hr, hpos, by omega, runScan_bytes hr, fun r' hr' hend' hequal => ?_⟩
  by_contra hlt
  rcases hstop with rfl | hstop
  · exact hlt hr'
  · refine differs_bytesOf_true hstop (by omega) ?_
    have hlast := hequal (r - 1) (by omega)
    have hnext := hequal r (by omega)
    rw [← Nat.add_sub_assoc hpos] at hlast
    rw [Nat.sub_add_cancel (by omega), hlast, hnext]

/-- Settles O11: the scan's own stop condition, read on the byte sequence. -/
theorem literalScanStopsBeforeARun : Obligations.LiteralScanStopsBeforeARun := by
  intro x src i hsrc hi hrun
  rw [runScan_of_agrees hsrc] at hrun
  obtain ⟨l, hl⟩ := Option.isSome_iff_exists.mp (litScan_bytesOf_isSome x i)
  obtain ⟨hcap, hend, hdiffer, hstop⟩ := litScan_spec hl hi.le
  rw [differs_bytesOf_false_iff] at hstop
  exact ⟨l, (litScan_of_agrees hsrc i).trans hl, litScan_pos hrun hl hi, by omega,
    fun k hk => differs_bytesOf_true (hdiffer k hk), hstop⟩

/-- Settles O12: the group is a run exactly when the run scan answers at least 2. -/
theorem groupIsARunElseALiteral : Obligations.GroupIsARunElseALiteral := by
  intro x src i hsrc hi
  obtain ⟨⟨kind, len⟩, -, hg, -, -, hpos, hcap, hend⟩ := group_bytesOf hi
  have hdrop : group (bytesOf (x.drop i)) (x.length - i) 0 = some (kind, len) := by
    rw [← List.length_drop, group_drop, Nat.add_zero, hg]
  rw [group_of_agrees hsrc, runScan_of_agrees hsrc, litScan_of_agrees hsrc, ← differs_bytesOf_false_iff]
  refine ⟨kind, len, hg, hpos, by omega, ?_⟩
  rcases group_cases hg with ⟨r, hr, h2, heq⟩ | ⟨l, hr, hl, heq⟩
  · cases heq
    exact ⟨by simp [(two_le_runScan_iff hr).mp h2], fun _ => ⟨h2, hr⟩, by simp, hdrop⟩
  · cases heq
    have hdiffers := mt (two_le_runScan_iff hr).mpr (by decide)
    exact ⟨by simp [hdiffers], by simp, fun _ => hl, hdrop⟩

end Sys2Proof.Machine

/-! # The Encoder (R69 to R73, R82 to R84, R102)

A fill step of the encoder emits the packet of the group at the cursor, so a fill pass emits, step by step, all that
`enc` gives from its cursor on. `ENC` is a size pass, which charges `pes x`, and, where that is within the capacity, a
fill pass from the beginning of the input. -/

namespace Sys2Proof.Machine

/-! ## Emitting bytes -/

theorem writeBytes_append (m : Memory) (a : Nat) (bs cs : List Byte) :
    (m.writeBytes a bs).writeBytes (a + bs.length) cs = m.writeBytes a (bs ++ cs) := by
  induction bs generalizing m a with
  | nil => rfl
  | cons b bs ih =>
    rw [List.length_cons, Nat.add_comm bs.length, ← Nat.add_assoc]
    exact ih (m.write a b) (a + 1)

/-- `s` after bytes have been written at `wp` and the cursor has moved to `next`: the effect of fill steps. -/
def State.emitted (s : State) (bytes : List Byte) (next : Nat) : State :=
  { s with outMem := s.outMem.writeBytes s.wp bytes, wp := s.wp + bytes.length, ip := next }

section Emitted
variable {s : State} {bytes : List Byte} {next : Nat}

theorem emit_eq_emitted {covered : Nat} (h : s.wp + bytes.length ≤ s.outCap) :
    s.emit bytes covered = .next (s.emitted bytes (s.ip + covered)) := emit_eq h

theorem emitted_nil (s : State) : s.emitted [] s.ip = s := rfl

theorem emitted_emitted (s : State) (bs cs : List Byte) (mid next : Nat) :
    (s.emitted bs mid).emitted cs next = s.emitted (bs ++ cs) next := by
  simp [State.emitted, writeBytes_append, Nat.add_assoc]

theorem emitted_read {k : Nat} (hk : k < bytes.length) :
    (s.emitted bytes next).outMem.read (s.wp + k) = bytes[k]? := read_writeBytes_inside hk

theorem emitted_read_outside {a : Nat} (ha : a < s.wp ∨ s.wp + bytes.length ≤ a) :
    (s.emitted bytes next).outMem.read a = s.outMem.read a := read_writeBytes_outside ha

theorem emitted_read_head {h : Byte} : (s.emitted (h :: bytes) next).outMem.read s.wp = some h :=
  emitted_read (bytes := h :: bytes) (k := 0) (Nat.zero_lt_succ _)

theorem emitted_read_tail {h : Byte} {k : Nat} (hk : k < bytes.length) :
    (s.emitted (h :: bytes) next).outMem.read (s.wp + 1 + k) = bytes[k]? := by
  rw [Nat.add_assoc, Nat.add_comm 1 k]
  exact emitted_read (bytes := h :: bytes) (Nat.succ_lt_succ hk)

/-- After a fill pass that emitted from the beginning of `OUT`, the host collects the bytes emitted (R83, R85). -/
theorem collect_endFillPass_emitted (hwp : s.wp = 0) :
    (s.emitted bytes next).endFillPass.collect = some bytes := by
  have hresult : (s.emitted bytes next).endFillPass.result = bytes.length := by simp [State.emitted, hwp]
  simp only [State.collect, endFillPass_status, if_true, hresult]
  refine readBytes_eq_some.mpr ⟨rfl, fun k hk => ?_⟩
  rw [← hwp]
  exact emitted_read (next := next) hk

end Emitted

/-! ## One fill step of the encoder (R69 to R71) -/

theorem groupBytes_run {x : Nat → Option Byte} {i len : Nat} {v : Byte} (h1 : 2 ≤ len) (h2 : len ≤ 128)
    (hv : x i = some v) : groupBytes x i (.run, len) = some [runHeaderBits len, v] := by
  simp [groupBytes, runHeader_eq h1 h2, hv]

theorem groupBytes_lit {x : Nat → Option Byte} {i len : Nat} {payload : List Byte} (h1 : 1 ≤ len) (h2 : len ≤ 128)
    (hp : readBytes x i len = some payload) :
    groupBytes x i (.lit, len) = some (literalHeaderBits len :: payload) := by
  simp [groupBytes, literalHeader_eq h1 h2, hp]

section FillStep
variable {s : State}

/-- Before the end of the input the fill pass of `ENC` takes the encoder fill step. -/
theorem exec_encoderFillStep (hb : s.status = .busy) (hop : s.op = 0) (hp : s.phase = .fill) (hi : s.ip < s.inLen) :
    exec .enc s = encoderFillStep s := (exec_enc s).trans (sequence_fill hb hop hp hi)

theorem encoderFillStep_of_group {g : Kind × Nat} {bytes : List Byte} (hg : group s.inByte s.inLen s.ip = some g)
    (hbytes : groupBytes s.inByte s.ip g = some bytes) (hcap : s.wp + bytes.length ≤ s.outCap) :
    encoderFillStep s = .next (s.emitted bytes (s.ip + g.2)) := by
  simp only [encoderFillStep, hg, hbytes, emit_eq_emitted hcap]

end FillStep

/-- Settles O31: what the step emits are the bytes of the group, which are the header and the value byte of a run, or
the header and the payload of a literal. -/
theorem encoderFillStepEmitsOnePacket : Obligations.EncoderFillStepEmitsOnePacket := by
  intro s x kind len _ hb hp hop hi hx hg hcap
  have hread : s.inByte = bytesOf x := inByte_of_input hx
  rw [← hread, length_of_input hx] at hg
  obtain ⟨hpos, hmax, hend, hrun⟩ := group_bounds hg hi
  have hexec := exec_encoderFillStep hb hop hp hi
  cases kind with
  | run =>
    have hv : s.inByte s.ip = x[s.ip]? := congrFun hread s.ip
    rw [List.getElem?_eq_getElem (length_of_input hx ▸ hi)] at hv
    have hbytes := groupBytes_run (hrun rfl) hmax hv
    refine ⟨_, hexec.trans (encoderFillStep_of_group hg hbytes hcap), fun _ => ⟨rfl, emitted_read_head, ?_⟩, by simp,
      fun a ha => emitted_read_outside ha, rfl⟩
    exact (emitted_read_tail (bytes := [_]) (k := 0) Nat.one_pos).trans (hv.symm.trans (congrFun hread s.ip))
  | lit =>
    have hpayload := readBytes_bytesOf (x := x) (hend.trans_eq (length_of_input hx).symm)
    obtain ⟨hlen, hall⟩ := readBytes_eq_some.mp hpayload
    have hbytes := groupBytes_lit hpos hmax (hread ▸ hpayload)
    have hsize : s.wp + (literalHeaderBits len :: (x.drop s.ip).take len).length = s.wp + 1 + len := by
      rw [List.length_cons, hlen, Nat.add_comm len, Nat.add_assoc]
    have hroom : s.wp + 1 + len ≤ s.outCap := (Nat.add_assoc _ _ _).trans_le hcap
    refine ⟨_, hexec.trans (encoderFillStep_of_group hg hbytes (hsize.trans_le hroom)), by simp,
      fun _ => ⟨hsize, emitted_read_head, fun k hk => ?_⟩, fun a ha => emitted_read_outside ha, rfl⟩
    exact (emitted_read_tail (hk.trans_eq hlen.symm)).trans (hall k hk).symm

/-! ## The fill pass -/

/-- A fill pass over the input `x`, with a host that makes no move. -/
structure State.FillPass (s : State) (x : List Byte) : Prop where
  busy : s.status = .busy
  phase : s.phase = .fill
  host : s.host = []
  input : s.input = some x
  ip_le : s.ip ≤ s.inLen

/-- `enc` is as long as predicted, from every index on (R88). -/
theorem length_encFrom (x : List Byte) (f i : Nat) : (encFrom x f i).length = pesFrom x f i := by
  induction f generalizing i with
  | zero => rfl
  | succ f ih =>
    by_cases hi : i < x.length
    · obtain ⟨g, bs, hg, hbs, hsize, -⟩ := group_bytesOf hi
      simp only [encFrom, pesFrom, if_pos hi, hg, hbs, List.length_append, hsize, ih]
    · simp only [encFrom, pesFrom, if_neg hi, List.length_nil]

section FillPass
variable {s : State} {x : List Byte}

theorem State.FillPass.emitted (h : s.FillPass x) {next : Nat} (hnext : next ≤ s.inLen) (bytes : List Byte) :
    (s.emitted bytes next).FillPass x where
  busy := h.busy
  phase := h.phase
  host := h.host
  input := h.input
  ip_le := hnext

theorem State.FillPass.step_eq (h : s.FillPass x) : step s = exec (decodeCommand s.op) s :=
  (step_noMove h.host).trans (engineStep_busy h.busy)

/-- Before the end of the input a step of `ENC` emits the first packet of what is left and moves past what it covers. -/
theorem State.FillPass.step_emits (h : s.FillPass x) (hop : s.op = 0) (hi : s.ip < s.inLen)
    (hcap : s.wp + (encFrom x x.length s.ip).length ≤ s.outCap) :
    ∃ bytes next, step s = .next (s.emitted bytes next) ∧ s.ip < next ∧ next ≤ s.inLen ∧
      encFrom x x.length s.ip = bytes ++ encFrom x x.length next := by
  have hlen := length_of_input h.input
  obtain ⟨g, bytes, hg, hbytes, -, hpos, -, hend⟩ := group_bytesOf (x := x) (hlen ▸ hi)
  have hfirst := encFrom_step (f := x.length) (hlen ▸ hi) (by omega) hg hbytes
  rw [hfirst, List.length_append] at hcap
  rw [← inByte_of_input h.input, hlen] at hg
  rw [← inByte_of_input h.input] at hbytes
  have hstep : step s = encoderFillStep s := by
    rw [h.step_eq, hop]
    exact exec_encoderFillStep h.busy hop h.phase hi
  exact ⟨bytes, s.ip + g.2, hstep.trans (encoderFillStep_of_group hg hbytes (by omega)), by omega, by omega, hfirst⟩

/-- A fill pass of `ENC` with room for what is left runs, by at most one step for each byte that is left, to the end of
the input, and emits all that is left of the encoding. -/
theorem State.FillPass.runs_enc (h : s.FillPass x) (hop : s.op = 0)
    (hcap : s.wp + (encFrom x x.length s.ip).length ≤ s.outCap) :
    ∃ k, k ≤ s.inLen - s.ip ∧ s.RunsBusy k (s.emitted (encFrom x x.length s.ip) s.inLen) := by
  induction hleft : s.inLen - s.ip using Nat.strong_induction_on generalizing s with
  | _ left ih =>
    by_cases hi : s.ip < s.inLen
    · obtain ⟨bytes, next, hstep, hlt, hle, hfirst⟩ := h.step_emits hop hi hcap
      rw [hfirst, List.length_append, ← Nat.add_assoc] at hcap
      obtain ⟨k, hk, hrun⟩ := ih (s.inLen - next) (by omega) (h.emitted hle bytes) hop hcap rfl
      have hsum : (s.emitted bytes next).emitted (encFrom x x.length next) s.inLen =
          s.emitted (encFrom x x.length s.ip) s.inLen := by rw [emitted_emitted, hfirst]
      exact ⟨k + 1, by omega, .cons h.busy hstep (hsum ▸ hrun)⟩
    · have hip : s.ip = s.inLen := Nat.le_antisymm h.ip_le (Nat.not_lt.mp hi)
      have hnone : encFrom x x.length s.ip = [] := encFrom_end (by rw [length_of_input h.input, hip])
      exact ⟨0, Nat.zero_le _, by rw [hnone, ← hip, emitted_nil]; exact .refl s⟩

end FillPass

/-! ## The operations with a fill pass (R73, R79) -/

section Operation
variable {s t u : State} {x : List Byte} {code : CommandCode} {k m : Nat}

/-- One run after another. -/
theorem State.RunsBusy.trans (h : s.RunsBusy k t) (h' : t.RunsBusy m u) : s.RunsBusy (k + m) u := by
  induction h with
  | refl s => rwa [Nat.zero_add]
  | cons hb hs hrest ih =>
    rw [Nat.add_right_comm]
    exact .cons hb hs (ih h')

/-- A launch and a run that ends it within the bound of R102 are an operation. -/
theorem operation_of_runsBusy {Q : State → Prop} (hb : s.status ≠ .busy)
    (hrun : { s with op := code }.begin.RunsBusy k t) (hk : k ≤ 2 * s.inLen + 2) (ht : t.status ≠ .busy) (hQ : Q t) :
    s.Operation (decodeCommand code) Q :=
  ⟨_, k, t, exec_launch code hb, hk, hrun.runFor_eq, hrun.busy_before, ht, hQ⟩

/-- At the end of the input the size pass of `ENC` and of `DEC` ends (R82). -/
theorem exec_endSizePass (hcode : code = 0 ∨ code = 1) (hb : s.status = .busy) (hop : s.op = code)
    (hp : s.phase = .size) (hend : ¬ s.ip < s.inLen) : exec (decodeCommand code) s = .next s.endSizePass := by
  rcases hcode with rfl | rfl
  · exact (exec_enc s).trans (sequence_endSize hb hop hp hend)
  · exact (exec_dec s).trans (sequence_endSize hb hop hp hend)

/-- At the end of the input the fill pass of `ENC` and of `DEC` ends (R83). -/
theorem exec_endFillPass (hcode : code = 0 ∨ code = 1) (hb : s.status = .busy) (hop : s.op = code)
    (hp : s.phase = .fill) (hend : ¬ s.ip < s.inLen) : exec (decodeCommand code) s = .next s.endFillPass := by
  rcases hcode with rfl | rfl
  · exact (exec_enc s).trans (sequence_endFill hb hop hp hend)
  · exact (exec_dec s).trans (sequence_endFill hb hop hp hend)

/-- The state of the operation of `code` over `x` at the end of its size pass: `acc` is the predicted size. -/
def State.sized (s : State) (code : CommandCode) (x : List Byte) : State :=
  { s with op := code }.begin.chargeSize (remainingSize code x 0) s.inLen

/-- The state of the operation of `code` over `x` at the beginning of its fill pass. -/
def State.filling (s : State) (code : CommandCode) (x : List Byte) : State :=
  { s.sized code x with phase := .fill, ip := 0, wp := 0 }

theorem sized_acc (s : State) (code : CommandCode) (x : List Byte) : (s.sized code x).acc = remainingSize code x 0 :=
  Nat.zero_add _

/-- A predicted size above the capacity fails the allocation (R82, R105). -/
theorem endSizePass_sized_raises (hcap : s.outCap < remainingSize code x 0) :
    (s.sized code x).endSizePass = (s.sized code x).raise .allocationFailure :=
  if_pos (hcap.trans_eq (sized_acc s code x).symm)

/-- A predicted size within the capacity begins the fill pass (R82). -/
theorem endSizePass_sized_fills (hcap : remainingSize code x 0 ≤ s.outCap) :
    (s.sized code x).endSizePass = s.filling code x :=
  if_neg (Nat.not_lt.mpr ((sized_acc s code x).trans_le hcap))

theorem filling_fillPass (hhost : s.host = []) (hx : s.input = some x) (code : CommandCode) :
    (s.filling code x).FillPass x where
  busy := rfl
  phase := rfl
  host := hhost
  input := hx
  ip_le := Nat.zero_le _

/-- `ENC` and `DEC` run from the launch through the size pass and the step that ends it. -/
theorem runs_endSizePass (hcode : code = 0 ∨ code = 1) (hhost : s.host = []) (hx : s.input = some x) :
    ∃ k, k ≤ s.inLen + 1 ∧ { s with op := code }.begin.RunsBusy k (s.sized code x).endSizePass := by
  have hpass := sizePass_begin hhost hx code
  obtain ⟨k, hk, hrun⟩ := hpass.runs
  have hsized : (s.sized code x).SizePass x := hpass.chargeSize (Nat.le_refl _) _
  have hlast := hsized.step_eq.trans (exec_endSizePass hcode hsized.busy rfl hsized.phase (Nat.lt_irrefl _))
  exact ⟨k + 1, Nat.succ_le_succ hk, hrun.snoc hsized.busy hlast⟩

/-- The operation of a command whose predicted size is above the capacity: a failed allocation (R84, R105). -/
theorem failedAllocation_operation (hcode : code = 0 ∨ code = 1) (hb : s.status ≠ .busy) (hhost : s.host = [])
    (hx : s.input = some x) (hover : s.outCap < remainingSize code x 0) :
    s.Operation (decodeCommand code) fun t =>
      s.SameInput t ∧ t.op = code ∧ t.status = .errAlloc ∧ t.result = 0 := by
  obtain ⟨k, hk, hsize⟩ := runs_endSizePass hcode hhost hx
  rw [endSizePass_sized_raises hover] at hsize
  exact operation_of_runsBusy hb hsize (by omega) (by simp) ⟨⟨rfl, rfl, rfl⟩, rfl, rfl, rfl⟩

/-- The operation of a command whose predicted size is within the capacity and whose fill pass emits `z`: it ends with
`z` at the beginning of `OUT` (R83, R84). -/
theorem filled_operation {z : List Byte} (hcode : code = 0 ∨ code = 1) (hb : s.status ≠ .busy) (hhost : s.host = [])
    (hx : s.input = some x) (hcap : remainingSize code x 0 ≤ s.outCap) (hm : m ≤ s.inLen)
    (hfill : (s.filling code x).RunsBusy m ((s.filling code x).emitted z s.inLen)) :
    s.Operation (decodeCommand code) fun t =>
      s.SameInput t ∧ t.op = code ∧ t.status = .done ∧ t.result = z.length ∧ t.collect = some z ∧
        ∀ a, t.result ≤ a → t.outMem.read a = s.outMem.read a := by
  obtain ⟨k, hk, hsize⟩ := runs_endSizePass hcode hhost hx
  rw [endSizePass_sized_fills hcap] at hsize
  have hfull := (filling_fillPass hhost hx code).emitted (Nat.le_refl _) z
  have hlast := hfull.step_eq.trans (exec_endFillPass hcode hfull.busy rfl hfull.phase (Nat.lt_irrefl _))
  exact operation_of_runsBusy hb ((hsize.trans hfill).snoc hfull.busy hlast) (by omega) (by simp)
    ⟨⟨rfl, rfl, rfl⟩, rfl, rfl, Nat.zero_add _, collect_endFillPass_emitted rfl,
      fun _ ha => emitted_read_outside (s := s.filling code x) (next := s.inLen) (.inr ha)⟩

theorem State.Operation.imp {i : Instr} {P Q : State → Prop} (h : s.Operation i P) (hPQ : ∀ t, P t → Q t) :
    s.Operation i Q := by
  obtain ⟨t0, k, t, hlaunch, hk, hrun, hbusy, hend, hP⟩ := h
  exact ⟨t0, k, t, hlaunch, hk, hrun, hbusy, hend, hPQ t hP⟩

end Operation

/-- Settles O58: the size pass charges `pes x`, and the fill pass, where there is room for it, emits `enc x`. -/
theorem encOperation : Obligations.EncOperation := by
  intro s x _ hb hhost hx
  have hlength : (enc x).length = pes x := length_encFrom x x.length 0
  by_cases hcap : pes x ≤ s.outCap
  · have hroom : 0 + (enc x).length ≤ s.outCap := by omega
    obtain ⟨m, hm, hfill⟩ := (filling_fillPass hhost hx 0).runs_enc rfl hroom
    refine (filled_operation (.inl rfl) hb hhost hx hcap hm hfill).imp ?_
    rintro t ⟨hsame, hop, hdone, hresult, hcollect, hrest⟩
    exact ⟨hsame, hop, fun _ => ⟨hdone, hresult, hresult.trans hlength, hcollect, hrest⟩,
      fun hover => absurd hcap (Nat.not_le.mpr hover)⟩
  · refine (failedAllocation_operation (.inl rfl) hb hhost hx (Nat.not_le.mp hcap)).imp ?_
    rintro t ⟨hsame, hop, hfailed⟩
    exact ⟨hsame, hop, fun hfits => absurd hfits hcap, fun _ => hfailed⟩

end Sys2Proof.Machine

/-! # The Decoder (R74 to R79, R82 to R84, R102, R104, R105, R108)

A fill step of the decoder runs the packet at the cursor, which emits the packet's expansion, or raises
`MalformedStream` when the packet is cut short. A fill pass therefore does, step by step, what `dec` says of the stream
from its cursor on. `DEC` is a size pass, which charges `pds y`, and, where that is within the capacity, a fill pass
from the beginning of the stream. -/

namespace Sys2Proof.Machine

/-! ## The packet at the cursor (R74) -/

/-- A packet read with nothing left over has as many bytes as its header says (R48). -/
theorem length_of_decodePacket {h : Byte} {tl : List Byte} {i : Instr} (hd : decodePacket (h :: tl) = .ok (i, [])) :
    (h :: tl).length = packetSize h := by
  obtain ⟨_, _, heq, hkind⟩ := decodePacket_ok hd
  obtain ⟨rfl, rfl⟩ := List.cons.inj heq
  obtain ⟨hrun, v, hrest, -⟩ | ⟨hlit, henough, -, hrest⟩ := hkind
  · rw [hrest, packetSize_run hrun]
    rfl
  · have hnone := List.drop_eq_nil_iff.mp hrest.symm
    rw [packetSize_lit hlit, List.length_cons]
    omega

section Fetch
variable {s : State} {bytes : List Byte} {i : Instr}

/-- The packet that the decoder reads in the bytes at the cursor is the one fetched. -/
theorem fetchPacket_of_decodePacket (hbytes : ∀ k, k < bytes.length → s.inByte (s.ip + k) = bytes[k]?)
    (hd : decodePacket bytes = .ok (i, [])) : s.ip < s.inLen ∧ s.fetchPacket = .packet i := by
  obtain ⟨h, tl, rfl, -⟩ := decodePacket_ok hd
  have hsize := length_of_decodePacket hd
  have hhead : s.inByte s.ip = some h := hbytes 0 (Nat.zero_lt_succ _)
  have hlast : s.ip + tl.length < s.inLen :=
    inByte_lt ((hbytes tl.length (Nat.lt_succ_self _)).trans (List.getElem?_eq_getElem (Nat.lt_succ_self _)))
  have hread := readBytes_eq_some.mpr ⟨hsize, fun k hk => hbytes k (hk.trans_eq hsize.symm)⟩
  rw [List.length_cons] at hsize
  exact ⟨inByte_lt hhead, fetchPacket_whole hhead (by omega) hread hd⟩

/-- The decoder fill step executes the packet fetched. -/
theorem decoderFillStep_of_fetchPacket (hp : isPacket i = true) (hf : s.fetchPacket = .packet i) :
    decoderFillStep s = exec i s := by
  cases i with
  | run c v => simp only [decoderFillStep, hf, exec]
  | lit payload => simp only [decoderFillStep, hf, exec]
  | enc | dec | pes | pds => cases hp

/-- Before the end of the input the fill pass of `DEC` takes the decoder fill step. -/
theorem exec_decoderFillStep (hb : s.status = .busy) (hp : s.phase = .fill) (hop : s.op = 1) (hi : s.ip < s.inLen) :
    exec .dec s = decoderFillStep s := (exec_dec s).trans (sequence_fill hb hop hp hi)

/-- In a fill pass `DEC` runs the packet that the decoder reads at the cursor. -/
theorem exec_dec_of_decodePacket (hb : s.status = .busy) (hp : s.phase = .fill) (hop : s.op = 1)
    (hbytes : ∀ k, k < bytes.length → s.inByte (s.ip + k) = bytes[k]?) (hd : decodePacket bytes = .ok (i, [])) :
    exec .dec s = exec i s := by
  obtain ⟨hi, hf⟩ := fetchPacket_of_decodePacket hbytes hd
  obtain ⟨hpacket, -⟩ := readPacketStoodInTheStream bytes [] i hd
  exact (exec_decoderFillStep hb hp hop hi).trans (decoderFillStep_of_fetchPacket hpacket hf)

end Fetch

/-- Settles O25: with no host move the step is that of the command in `OP`, which is `DEC`. -/
theorem decoderStepRunsThePacketAtTheCursor : Obligations.DecoderStepRunsThePacketAtTheCursor := by
  intro s bytes i hhost hb hp hop hbytes hd
  have hstep := (step_noMove hhost).trans (engineStep_busy hb)
  rw [hop, decodeCommand_one] at hstep
  exact hstep.trans (exec_dec_of_decodePacket hb hp hop hbytes hd)

/-! ## The two packets (R75, R76) -/

section Packet
variable {s : State} {c : Nat} {v h : Byte} {payload : List Byte}

theorem exec_run_emitted (hin : s.ip + 1 < s.inLen) (hcap : s.wp + c ≤ s.outCap) :
    exec (.run c v) s = .next (s.emitted (List.replicate c v) (s.ip + 2)) := by
  have hwhole : ¬ s.payloadPastEnd Config.runPacketBytes := Nat.not_lt.mpr hin
  exact (if_neg hwhole).trans (emit_eq_emitted (by rwa [List.length_replicate]))

theorem exec_run_raises (hcut : s.inLen ≤ s.ip + 1) : exec (.run c v) s = .next (s.raise .malformedStream) :=
  if_pos (Nat.lt_succ_of_le hcut)

theorem exec_lit_emitted (hin : s.ip + 1 + payload.length ≤ s.inLen) (hcap : s.wp + payload.length ≤ s.outCap) :
    exec (.lit payload) s = .next (s.emitted payload (s.ip + 1 + payload.length)) := by
  rw [Nat.add_assoc] at hin ⊢
  exact (if_neg (Nat.not_lt.mpr hin)).trans (emit_eq_emitted hcap)

theorem exec_lit_raises (hcut : s.inLen < s.ip + 1 + payload.length) :
    exec (.lit payload) s = .next (s.raise .malformedStream) :=
  if_pos (by rwa [Nat.add_assoc] at hcut)

theorem exec_dec_run (hb : s.status = .busy) (hp : s.phase = .fill) (hop : s.op = 1) (hh : s.inByte s.ip = some h)
    (hr : isRun h = true) (hv : s.inByte (s.ip + 1) = some v) : exec .dec s = exec (.run (count h) v) s := by
  refine exec_dec_of_decodePacket (bytes := [h, v]) hb hp hop (fun k hk => ?_) (decodePacket_run hr)
  match k, hk with
  | 0, _ => exact hh
  | 1, _ => exact hv

theorem exec_dec_lit (hb : s.status = .busy) (hp : s.phase = .fill) (hop : s.op = 1) (hh : s.inByte s.ip = some h)
    (hr : isRun h = false) (hc : count h = payload.length)
    (hpayload : ∀ k, k < payload.length → s.inByte (s.ip + 1 + k) = payload[k]?) :
    exec .dec s = exec (.lit payload) s := by
  have hd : decodePacket (h :: payload) = .ok (.lit payload, []) := by
    rw [decodePacket_lit hr hc.le, hc, List.take_length, List.drop_length]
  refine exec_dec_of_decodePacket hb hp hop (fun k hk => ?_) hd
  cases k with
  | zero => exact hh
  | succ k =>
    rw [Nat.add_comm k 1, ← Nat.add_assoc, Nat.add_comm 1 k]
    exact hpayload k (Nat.lt_of_succ_lt_succ hk)

end Packet

/-- Settles O32: the copies are emitted, and `DEC` reads the packet from its header and its value byte. -/
theorem runPacketExpands : Obligations.RunPacketExpands := by
  intro c v s
  refine ⟨fun _ hin hcap => ⟨_, exec_run_emitted hin hcap, fun k hk => ?_, fun a ha => ?_, ?_⟩, exec_run_raises, ?_⟩
  · rw [emitted_read (by rwa [List.length_replicate]), List.getElem?_replicate_of_lt hk]
  · exact emitted_read_outside (by rwa [List.length_replicate])
  · simp [State.emitted]
  · rintro hb hp hop h hh hr rfl hv
    exact exec_dec_run hb hp hop hh hr hv

/-- Settles O33: the payload is emitted, and `DEC` reads the packet from its header and its payload. -/
theorem literalPacketCopies : Obligations.LiteralPacketCopies := by
  intro payload s
  exact ⟨fun _ hin hcap => ⟨_, exec_lit_emitted hin hcap, fun _ => emitted_read, fun _ => emitted_read_outside, rfl⟩,
    exec_lit_raises, fun hb hp hop h hh hr hc hpayload => exec_dec_lit hb hp hop hh hr hc hpayload⟩

/-! ## The expansion of a packet (R77) -/

/-- The output of the packet with the header `h` at index `i` of `y`: the copies of the value byte, or the payload. -/
def expansion (y : List Byte) (i : Nat) (h : Byte) : List Byte :=
  if isRun h then y[i + 1]?.elim [] (List.replicate (count h)) else (y.drop (i + 1)).take (count h)

section Expansion
variable {y : List Byte} {i f : Nat} {h v : Byte}

theorem expansion_run (hr : isRun h = true) (hv : y[i + 1]? = some v) :
    expansion y i h = List.replicate (count h) v := by simp [expansion, hr, hv]

theorem expansion_lit (hr : isRun h = false) : expansion y i h = (y.drop (i + 1)).take (count h) := by
  simp [expansion, hr]

/-- A whole packet is a run with its value byte or a literal with its payload. -/
theorem wholePacket_cases (hfit : i + packetSize h ≤ y.length) :
    (isRun h = true ∧ packetSize h = 2 ∧ ∃ v, y[i + 1]? = some v) ∨
    (isRun h = false ∧ packetSize h = 1 + count h ∧ i + 1 + count h ≤ y.length) := by
  cases hr : isRun h with
  | true =>
    have hsize := packetSize_run hr
    exact .inl ⟨rfl, hsize, _, List.getElem?_eq_getElem (by omega)⟩
  | false =>
    have hsize := packetSize_lit hr
    exact .inr ⟨rfl, hsize, by omega⟩

theorem length_expansion (hfit : i + packetSize h ≤ y.length) : (expansion y i h).length = count h := by
  obtain ⟨hr, -, v, hv⟩ | ⟨hr, -, hend⟩ := wholePacket_cases hfit
  · rw [expansion_run hr hv, List.length_replicate]
  · rw [expansion_lit hr, List.length_take, List.length_drop]
    omega

theorem expansion_getElem? (hfit : i + packetSize h ≤ y.length) {k : Nat} (hk : k < count h) :
    (expansion y i h)[k]? = if isRun h then y[i + 1]? else y[i + 1 + k]? := by
  obtain ⟨hr, -, v, hv⟩ | ⟨hr, -, -⟩ := wholePacket_cases hfit
  · rw [expansion_run hr hv, if_pos hr, hv, List.getElem?_replicate_of_lt hk]
  · rw [expansion_lit hr, hr, if_neg Bool.false_ne_true, List.getElem?_take_of_lt hk, List.getElem?_drop]

/-- The decoding of a stream is the expansion of its first packet and the decoding of what is left (R78). -/
theorem decFrom_expansion (hh : y[i]? = some h) (hfit : i + packetSize h ≤ y.length) (hf : y.length ≤ i + f) :
    decFrom y f i = (decFrom y f (i + packetSize h)).map (expansion y i h ++ ·) := by
  obtain ⟨hr, hsize, v, hv⟩ | ⟨hr, hsize, hend⟩ := wholePacket_cases hfit
  · rw [decFrom_run hh hr hv hf, hsize, expansion_run hr hv]
  · rw [decFrom_lit hh hr hend hf, hsize, expansion_lit hr, Nat.add_assoc]

/-- A decoding is as long as predicted, from every index on (R89). -/
theorem length_of_decFrom {z : List Byte} (hf : y.length ≤ i + f) (hz : decFrom y f i = some z) :
    z.length = pdsFrom y f i := by
  induction hleft : y.length - i using Nat.strong_induction_on generalizing i z with
  | _ left ih =>
    cases hh : y[i]? with
    | none =>
      have hend := List.getElem?_eq_none_iff.mp hh
      rw [decFrom_end hend] at hz
      rw [pdsFrom_end hend, ← Option.some.inj hz, List.length_nil]
    | some h =>
      have hpos := two_le_packetSize h
      have hi := (List.getElem?_eq_some_iff.mp hh).1
      by_cases hfit : i + packetSize h ≤ y.length
      · rw [decFrom_expansion hh hfit hf] at hz
        obtain ⟨z', hz', rfl⟩ := Option.map_eq_some_iff.mp hz
        rw [pdsFrom_step hh hf, min_eq_left hfit, List.length_append, length_expansion hfit,
          ih (y.length - (i + packetSize h)) (by omega) (by omega) hz' rfl]
      · rw [decFrom_cut hh (Nat.not_le.mp hfit) hf] at hz
        cases hz

end Expansion

/-! ## One fill step of the decoder (R74, R77, R104) -/

section FillStep
variable {s : State} {x : List Byte} {h : Byte}

/-- A whole packet at the cursor, with room for its expansion, is expanded. -/
theorem exec_dec_emitted (hb : s.status = .busy) (hp : s.phase = .fill) (hop : s.op = 1) (hx : s.input = some x)
    (hh : x[s.ip]? = some h) (hfit : s.ip + packetSize h ≤ x.length) (hcap : s.wp + count h ≤ s.outCap) :
    exec .dec s = .next (s.emitted (expansion x s.ip h) (s.ip + packetSize h)) := by
  obtain ⟨hlen, hbyte⟩ := input_eq_some.mp hx
  have hhead := (hbyte s.ip).trans hh
  obtain ⟨hr, hsize, v, hv⟩ | ⟨hr, hsize, hend⟩ := wholePacket_cases hfit
  · rw [exec_dec_run hb hp hop hhead hr ((hbyte _).trans hv), exec_run_emitted (by omega) hcap, hsize,
      expansion_run hr hv]
  · have hcount := length_expansion hfit
    have hpayload : ∀ k, k < (expansion x s.ip h).length → s.inByte (s.ip + 1 + k) = (expansion x s.ip h)[k]? := by
      intro k hk
      rw [hbyte, expansion_getElem? hfit (hcount ▸ hk), hr, if_neg Bool.false_ne_true]
    rw [exec_dec_lit hb hp hop hhead hr hcount.symm hpayload, exec_lit_emitted (by omega) (by omega), hcount, hsize,
      Nat.add_assoc]

/-- A packet cut short raises `MalformedStream` (R104). -/
theorem exec_dec_raises (hb : s.status = .busy) (hp : s.phase = .fill) (hop : s.op = 1)
    (hh : s.inByte s.ip = some h) (hcut : s.inLen < s.ip + packetSize h) :
    exec .dec s = .next (s.raise .malformedStream) := by
  rw [exec_decoderFillStep hb hp hop (inByte_lt hh), decoderFillStep, fetchPacket_cut hh hcut]

end FillStep

/-- Settles O34: the step emits the expansion of the packet at the cursor. -/
theorem decoderFillStepMultiplexes : Obligations.DecoderFillStepMultiplexes := by
  intro s x h _ hb hp hop hx hh hfit hcap
  rw [← length_of_input hx] at hfit
  have hcount := length_expansion hfit
  refine ⟨_, exec_dec_emitted hb hp hop hx hh hfit hcap, fun k hk => ?_, fun a ha => ?_, ?_⟩
  · rw [emitted_read (hcount.symm ▸ hk), expansion_getElem? hfit hk]
  · exact emitted_read_outside (hcount.symm ▸ ha)
  · simp [State.emitted, hcount]

/-! ## The fill pass of `DEC` -/

/-- `s` at the end of its steps in a fill pass of `DEC` whose cursor has what is left decode to `out`: the bytes are
emitted, or the operation ends with `MalformedStream`. -/
def State.decoded (s : State) : Option (List Byte) → State
  | some z => s.emitted z s.inLen
  | none => s.raise .malformedStream

/-- An exception leaves nothing of what was emitted before it (R109). -/
theorem emitted_decoded (s : State) (bytes : List Byte) (next : Nat) (out : Option (List Byte)) :
    (s.emitted bytes next).decoded out = s.decoded (out.map (bytes ++ ·)) := by
  cases out with
  | none => rfl
  | some z => exact emitted_emitted s bytes z next s.inLen

section FillPass
variable {s : State} {y : List Byte}

theorem State.FillPass.step_eq_dec (h : s.FillPass y) (hop : s.op = 1) : step s = exec .dec s := by
  rw [h.step_eq, hop, decodeCommand_one]

/-- Before the end of the input a step of `DEC` raises `MalformedStream` for a stream that fails there, or emits the
first packet of what is left and moves past it. -/
theorem State.FillPass.step_decodes (h : s.FillPass y) (hop : s.op = 1) (hi : s.ip < s.inLen)
    (hcap : s.wp + pdsFrom y y.length s.ip ≤ s.outCap) :
    (decFrom y y.length s.ip = none ∧ step s = .next (s.raise .malformedStream)) ∨
    ∃ bytes next, step s = .next (s.emitted bytes next) ∧ s.ip < next ∧ next ≤ s.inLen ∧
      pdsFrom y y.length s.ip = bytes.length + pdsFrom y y.length next ∧
      decFrom y y.length s.ip = (decFrom y y.length next).map (bytes ++ ·) := by
  obtain ⟨hlen, hbyte⟩ := input_eq_some.mp h.input
  obtain ⟨hd, hh⟩ : ∃ hd, y[s.ip]? = some hd := ⟨_, List.getElem?_eq_getElem (hlen ▸ hi)⟩
  have hfuel : y.length ≤ s.ip + y.length := Nat.le_add_left _ _
  have hpos := two_le_packetSize hd
  rw [h.step_eq_dec hop]
  by_cases hfit : s.ip + packetSize hd ≤ y.length
  · have hcount := length_expansion hfit
    have hpds := pdsFrom_step hh hfuel
    rw [min_eq_left hfit] at hpds
    have hstep := exec_dec_emitted h.busy h.phase hop h.input hh hfit (by omega)
    exact .inr ⟨_, _, hstep, by omega, by omega, hcount ▸ hpds, decFrom_expansion hh hfit hfuel⟩
  · have hcut := Nat.not_le.mp hfit
    exact .inl ⟨decFrom_cut hh hcut hfuel,
      exec_dec_raises h.busy h.phase hop ((hbyte _).trans hh) (hlen ▸ hcut)⟩

/-- A fill pass of `DEC` with room for what is left runs, by at most one step for each byte that is left, to the end of
the input or to the packet cut short. -/
theorem State.FillPass.runs_dec (h : s.FillPass y) (hop : s.op = 1)
    (hcap : s.wp + pdsFrom y y.length s.ip ≤ s.outCap) :
    ∃ k, k ≤ s.inLen - s.ip ∧ s.RunsBusy k (s.decoded (decFrom y y.length s.ip)) := by
  induction hleft : s.inLen - s.ip using Nat.strong_induction_on generalizing s with
  | _ left ih =>
    by_cases hi : s.ip < s.inLen
    · obtain ⟨hnone, hstep⟩ | ⟨bytes, next, hstep, hlt, hle, hsize, hdec⟩ := h.step_decodes hop hi hcap
      · exact ⟨1, by omega, by rw [hnone]; exact .cons h.busy hstep (.refl _)⟩
      · rw [hsize, ← Nat.add_assoc] at hcap
        obtain ⟨k, hk, hrun⟩ := ih (s.inLen - next) (by omega) (h.emitted hle bytes) hop hcap rfl
        have hsum : (s.emitted bytes next).decoded (decFrom y y.length next) =
            s.decoded (decFrom y y.length s.ip) := by rw [emitted_decoded, hdec]
        exact ⟨k + 1, by omega, .cons h.busy hstep (hsum ▸ hrun)⟩
    · have hip : s.ip = s.inLen := Nat.le_antisymm h.ip_le (Nat.not_lt.mp hi)
      have hnone : decFrom y y.length s.ip = some [] := decFrom_end (by rw [length_of_input h.input, hip])
      exact ⟨0, Nat.zero_le _, by rw [hnone, State.decoded, ← hip, emitted_nil]; exact .refl s⟩

end FillPass

/-! ## The operation of `DEC` (R79, R108) -/

/-- The operation of `DEC` on a stream that fails, with room for what it declares (R84, R104). -/
theorem malformedStream_operation {s : State} {y : List Byte} {m : Nat} (hb : s.status ≠ .busy)
    (hhost : s.host = []) (hy : s.input = some y) (hcap : pds y ≤ s.outCap) (hm : m ≤ s.inLen)
    (hfill : (s.filling 1 y).RunsBusy m ((s.filling 1 y).raise .malformedStream)) :
    s.Operation .dec fun t => s.SameInput t ∧ t.op = 1 ∧ t.status = .errMalformed ∧ t.result = 0 := by
  obtain ⟨k, hk, hsize⟩ := runs_endSizePass (code := 1) (.inr rfl) hhost hy
  rw [endSizePass_sized_fills (code := 1) hcap] at hsize
  exact operation_of_runsBusy hb (hsize.trans hfill) (by omega) (by simp) ⟨⟨rfl, rfl, rfl⟩, rfl, rfl, rfl⟩

/-- Settles O59: the size pass charges `pds y`, and the fill pass, where there is room for it, does what `dec y`
says. -/
theorem decOperation : Obligations.DecOperation := by
  intro s y _ hb hhost hy
  by_cases hcap : pds y ≤ s.outCap
  · have hover : ¬ s.outCap < pds y := Nat.not_lt.mpr hcap
    have hroom : 0 + pds y ≤ s.outCap := by omega
    obtain ⟨m, hm, hfill⟩ : ∃ m, m ≤ s.inLen ∧ (s.filling 1 y).RunsBusy m ((s.filling 1 y).decoded (dec y)) :=
      (filling_fillPass hhost hy 1).runs_dec rfl hroom
    cases hdec : dec y with
    | none =>
      rw [hdec] at hfill
      refine (malformedStream_operation hb hhost hy hcap hm hfill).imp ?_
      rintro t ⟨hsame, hop, hfailed⟩
      exact ⟨hsame, hop, fun h => absurd h hover, fun _ _ => hfailed, fun _ _ h => nomatch h⟩
    | some z =>
      rw [hdec] at hfill
      have hlength : z.length = pds y := length_of_decFrom (Nat.le_add_left _ _) hdec
      refine (filled_operation (code := 1) (.inr rfl) hb hhost hy hcap hm hfill).imp ?_
      rintro t ⟨hsame, hop, hdone, hresult, hcollect, hrest⟩
      refine ⟨hsame, hop, fun h => absurd h hover, fun _ h => (nomatch h), ?_⟩
      rintro _ _ ⟨⟩
      exact ⟨hdone, hresult, hresult.trans hlength, hcollect, hrest⟩
  · refine (failedAllocation_operation (code := 1) (.inr rfl) hb hhost hy (Nat.not_le.mp hcap)).imp ?_
    rintro t ⟨hsame, hop, hfailed⟩
    exact ⟨hsame, hop, fun _ => hfailed, fun hfits => absurd hfits hcap, fun _ hfits => absurd hfits hcap⟩

end Sys2Proof.Machine

/-! # The steps of a command (R80 to R83, R117)

A step is the host's move or the engine's, and the engine's step is a row of the sequencing table. At the two ends of a
pass nothing is left of the input, so the invariant's sums are equalities of the registers. -/

namespace Sys2Proof.Machine

/-! ## The host's moves that run the engine -/

section HostMoves
variable {s : State} {rest : List HostMove}

/-- A host that waits leaves the step to the engine (R81). -/
theorem step_wait (h : s.host = .wait :: rest) : step s = { s with host := rest }.engineStep := step_move h

/-- A `START` while no operation runs is the command that `OP` selects, issued (R80). -/
theorem step_start_notBusy (h : s.host = .start :: rest) (hb : s.status ≠ .busy) :
    step s = exec (decodeCommand s.op) { s with host := rest } := (step_move h).trans (if_neg hb)

/-- A `START` while an operation runs has no effect but that it is taken off the list (R80). -/
theorem step_start_busy (h : s.host = .start :: rest) (hb : s.status = .busy) :
    step s = .next { s with host := rest } := (step_move h).trans (if_pos hb)

end HostMoves

/-- Settles O24: an absent host and a waiting one both leave the step to the engine. -/
theorem stepRunsTheSelectedCommand : Obligations.StepRunsTheSelectedCommand := by
  intro s
  exact ⟨fun h hb => (step_noMove h).trans (engineStep_busy hb),
    fun h hb => (step_noMove h).trans (engineStep_notBusy hb),
    fun rest h hb => (step_wait h).trans (engineStep_busy (s := { s with host := rest }) hb),
    fun rest h hb => (step_wait h).trans (engineStep_notBusy (s := { s with host := rest }) hb),
    fun _ h hb => step_start_notBusy h hb⟩

/-- Settles O26: the command that an accepted `START` issues is launched, whichever it is. -/
theorem startBeginsAnOperation : Obligations.StartBeginsAnOperation := by
  intro s rest h
  exact ⟨fun hb => (step_start_notBusy h hb).trans (exec_launch (s := { s with host := rest }) s.op hb),
    step_start_busy h⟩

/-! ## The code of a command -/

theorem decodeCommand_injective : Function.Injective decodeCommand := by
  intro a b h
  have hcode : Encoding.opRegister a = .opRegister b := by
    rw [← encode_decodeCommand a, ← encode_decodeCommand b, h]
  exact Encoding.opRegister.inj hcode

/-- A command that is one of two has the code of one of the two. -/
theorem code_of_encode {i : Instr} {code : CommandCode} (hcode : encode i = .opRegister code) (a b : CommandCode)
    (hi : i = decodeCommand a ∨ i = decodeCommand b) : code = a ∨ code = b := by
  rw [decodeCommand_of_encode hcode] at hi
  exact hi.imp (@decodeCommand_injective _ _) (@decodeCommand_injective _ _)

/-! ## The ends of the two passes -/

section Ends
variable {s : State}

/-- A predicted size above the capacity fails the allocation (R82, R105). -/
theorem endSizePass_raises (hcap : s.outCap < s.acc) : s.endSizePass = s.raise .allocationFailure := if_pos hcap

/-- A predicted size within the capacity begins the fill pass (R82). -/
theorem endSizePass_fills (hcap : s.acc ≤ s.outCap) : s.endSizePass = { s with phase := .fill, ip := 0, wp := 0 } :=
  if_neg (Nat.not_lt.mpr hcap)

/-- At the end of the fill pass the predicted size has been written (R83), whatever input agrees with `IN`. -/
theorem State.Inv.wp_at_end (h : s.Inv) (hp : s.phase = .fill) (hend : s.ip = s.inLen) : s.wp = s.acc := by
  obtain ⟨x, hx⟩ := exists_inputAgrees s
  have hlength : x.length = s.inLen := hx.1
  have hexact := h.fill_exact hp x hx
  rwa [remainingSize_past s.op (hlength.trans hend.symm).le, Nat.add_zero] at hexact

end Ends

/-- Settles O30: `acc` is the invariant's sum with nothing left, and the capacity chooses between the two ends of `ENC`
and `DEC`. -/
theorem endOfTheSizePass : Obligations.EndOfTheSizePass := by
  intro s hb hp hend i hcode
  have hover : ¬ s.ip < s.inLen := hend.not_lt
  have hi : i = decodeCommand s.op := decodeCommand_of_encode hcode
  refine ⟨fun h x hx => ?_, fun hpred => ?_, fun hfill => ?_⟩
  · rw [h.acc_at_end hp hend hx]
    exact ⟨fun henc => remainingSize_of_encoding (code_of_encode hcode 0 2 henc) x 0,
      fun hdec => remainingSize_of_decoding (code_of_encode hcode 1 3 hdec) x 0⟩
  · rw [hi]
    exact exec_endPrediction (code_of_encode hcode 2 3 hpred) hb rfl hp hover
  · rw [hi, exec_endSizePass (code_of_encode hcode 0 1 hfill) hb rfl hp hover]
    exact ⟨fun hcap => congrArg _ (endSizePass_fills hcap), fun hcap => congrArg _ (endSizePass_raises hcap)⟩

/-- Settles O36: `ENC` and `DEC` end alike, and the invariant's sum has nothing left. -/
theorem fillPassEndsWithTheLength : Obligations.FillPassEndsWithTheLength := by
  intro s hb hp hend i hmem hcode
  have hfill : i = .enc ∨ i = .dec := by simpa using hmem
  refine ⟨?_, fun h => h.wp_at_end hp hend⟩
  rw [decodeCommand_of_encode hcode]
  exact exec_endFillPass (code_of_encode hcode 0 1 hfill) hb rfl hp hend.not_lt

end Sys2Proof.Machine

/-! # The packet walk (R89, R95, R96, R99)

The walk goes from header to header, whatever bytes lie between. Decoding takes the same steps, and fails exactly where
the walk leaves the stream, in a packet cut short. -/

namespace Sys2Proof.Machine

/-! ## From packet to packet -/

section Walk
variable {y z : List Byte} {i : Nat}

/-- Induction along a stream: at its end, at a packet cut short, or from the index past a whole packet. -/
theorem packetWalk_induction {P : Nat → Prop} (y : List Byte) (atEnd : ∀ i, y.length ≤ i → P i)
    (cut : ∀ i h, y[i]? = some h → y.length < i + packetSize h → P i)
    (whole : ∀ i h, y[i]? = some h → i + packetSize h ≤ y.length → P (i + packetSize h) → P i) (i : Nat) : P i := by
  induction hleft : y.length - i using Nat.strong_induction_on generalizing i with
  | _ left ih =>
    cases hh : y[i]? with
    | none => exact atEnd i (List.getElem?_eq_none_iff.mp hh)
    | some h =>
      have hi := (List.getElem?_eq_some_iff.mp hh).1
      have hpos := two_le_packetSize h
      by_cases hfit : i + packetSize h ≤ y.length
      · exact whole i h hh hfit (ih _ (by omega) _ rfl)
      · exact cut i h hh (Nat.not_le.mp hfit)

/-- A walk that begins inside a stream does not end inside it. -/
theorem le_walkEnd (y : List Byte) (i : Nat) : y.length ≤ walkEnd y y.length i := by
  induction i using packetWalk_induction y with
  | atEnd i hend => rwa [walkEnd_end hend]
  | cut i h hh hcut => rw [walkEnd_step hh (Nat.le_add_left _ _), walkEnd_end hcut.le]; exact hcut.le
  | whole i h hh hfit ih => rwa [walkEnd_step hh (Nat.le_add_left _ _)]

/-- Decoding fails where the walk overshoots the stream (R96). -/
theorem decFrom_eq_none_iff (hi : i ≤ y.length) :
    decFrom y y.length i = none ↔ y.length < walkEnd y y.length i := by
  induction i using packetWalk_induction y with
  | atEnd i hend => simp [decFrom_end hend, walkEnd_end hend, hi]
  | cut i h hh hcut =>
    rw [walkEnd_step hh (Nat.le_add_left _ _), walkEnd_end hcut.le, decFrom_cut hh hcut (Nat.le_add_left _ _)]
    simp [hcut]
  | whole i h hh hfit ih =>
    rw [walkEnd_step hh (Nat.le_add_left _ _), decFrom_expansion hh hfit (Nat.le_add_left _ _), Option.map_eq_none_iff]
    exact ih hfit

theorem dec_eq_none_iff (y : List Byte) : dec y = none ↔ y.length < walkEnd y y.length 0 :=
  decFrom_eq_none_iff (Nat.zero_le _)

/-- A stream is valid when it decodes, and only then (R96). -/
theorem validStream_iff_dec (y : List Byte) : ValidStream y ↔ ∃ z, dec y = some z := by
  rw [← Option.ne_none_iff_exists', Ne, dec_eq_none_iff, Nat.not_lt]
  exact ⟨le_of_eq, fun h => h.antisymm (le_walkEnd y 0)⟩

theorem length_of_dec (hz : dec y = some z) : z.length = pds y := length_of_decFrom (Nat.le_add_left _ _) hz

theorem packetSize_le (h : Byte) : packetSize h ≤ 129 := by
  have hcount := count_le h
  cases hr : isRun h with
  | true => rw [packetSize_run hr]; omega
  | false => rw [packetSize_lit hr]; omega

/-- What is declared from an index on: at most 128 for every two bytes that are left, at least 1 for every 129 (R99). -/
theorem pdsFrom_bounds (y : List Byte) (i : Nat) :
    pdsFrom y y.length i ≤ 128 * ((y.length - i + 1) / 2) ∧ (y.length - i + 128) / 129 ≤ pdsFrom y y.length i := by
  induction i using packetWalk_induction y with
  | atEnd i hend => rw [pdsFrom_end hend]; omega
  | cut i h hh hcut =>
    have hi := (List.getElem?_eq_some_iff.mp hh).1
    have hcount := And.intro (count_pos h) (count_le h)
    have hsize := packetSize_le h
    rw [pdsFrom_step hh (Nat.le_add_left _ _), pdsFrom_end (by omega)]
    omega
  | whole i h hh hfit ih =>
    have hcount := And.intro (count_pos h) (count_le h)
    have hsize := And.intro (two_le_packetSize h) (packetSize_le h)
    rw [pdsFrom_step hh (Nat.le_add_left _ _), Nat.min_eq_left hfit]
    omega

end Walk

/-- Settles O16: the walk and the decoder take the same steps, and the walk stops past the stream only in a packet cut
short. -/
theorem decodingFailsExactlyOnInvalidStreams : Obligations.DecodingFailsExactlyOnInvalidStreams :=
  fun y => ⟨dec_eq_none_iff y, le_walkEnd y 0⟩

/-- Settles O15: a decoding is as long as the counts of its packets; the end of the pass is the invariant's. -/
theorem decodedLengthIsPredicted : Obligations.DecodedLengthIsPredicted := by
  refine ⟨fun y hy => ?_, fun s h hp _ hend => h.wp_at_end hp hend⟩
  obtain ⟨z, hz⟩ := (validStream_iff_dec y).mp hy
  exact ⟨z, hz, length_of_dec hz⟩

/-- Settles O14: each packet of the encoding is as long as its size; the end of the pass is the invariant's. -/
theorem encodedLengthIsPredicted : Obligations.EncodedLengthIsPredicted :=
  ⟨fun x => length_encFrom x x.length 0, fun _ h hp _ hend => h.wp_at_end hp hend⟩

end Sys2Proof.Machine

/-! # The encoder's packets (R65 to R72, R78, R87, R98)

A packet that the encoder emits can take no more of the bytes after it: a run is capped or followed by another byte, and
a literal is capped or followed by two equal bytes or by nothing. A byte sequence begins with just one such packet, so
packets that satisfy the conditions of R98 are those that the encoder emits for their output. -/

namespace Sys2Proof.Machine

/-! ## The output of a packet (R77) -/

/-- A well-formed packet of the stream (R43, R44). -/
abbrev StreamPacket (p : Instr) : Prop := isPacket p = true ∧ p.wellFormed = true

/-- The bytes a packet expands to (R75, R76). -/
def packetOutput : Instr → List Byte
  | .run c v => List.replicate c v
  | .lit payload => payload
  | .enc => []
  | .dec => []
  | .pes => []
  | .pds => []

/-- The bytes a stream of packets expands to. -/
def streamOutput (packets : List Instr) : List Byte := packets.flatMap packetOutput

@[simp] theorem packetOutput_run (c : Nat) (v : Byte) : packetOutput (.run c v) = List.replicate c v := rfl

@[simp] theorem packetOutput_lit (payload : List Byte) : packetOutput (.lit payload) = payload := rfl

theorem streamOutput_cons (p : Instr) (ps : List Instr) :
    streamOutput (p :: ps) = packetOutput p ++ streamOutput ps := rfl

theorem encodeStream_cons (p : Instr) (ps : List Instr) :
    encodeStream (p :: ps) = packetBytes p ++ encodeStream ps := rfl

/-- A packet is a run or a literal, of 1 to 128 bytes. -/
theorem StreamPacket.cases {p : Instr} (h : StreamPacket p) :
    (∃ c v, p = .run c v ∧ 1 ≤ c ∧ c ≤ 128) ∨
    (∃ payload, p = .lit payload ∧ 1 ≤ payload.length ∧ payload.length ≤ 128) := by
  obtain ⟨hp, hw⟩ := h
  cases p with
  | run c v => exact .inl ⟨c, v, rfl, wellFormed_run_iff.mp hw⟩
  | lit payload => exact .inr ⟨payload, rfl, wellFormed_lit_iff.mp hw⟩
  | enc | dec | pes | pds => cases hp

theorem streamPacket_run {c : Nat} {v : Byte} (h1 : 1 ≤ c) (h128 : c ≤ 128) : StreamPacket (.run c v) :=
  ⟨rfl, wellFormed_run_iff.mpr ⟨h1, h128⟩⟩

theorem streamPacket_lit {payload : List Byte} (h1 : 1 ≤ payload.length) (h128 : payload.length ≤ 128) :
    StreamPacket (.lit payload) :=
  ⟨rfl, wellFormed_lit_iff.mpr ⟨h1, h128⟩⟩

theorem StreamPacket.output_bounds {p : Instr} (h : StreamPacket p) :
    1 ≤ (packetOutput p).length ∧ (packetOutput p).length ≤ 128 := by
  obtain ⟨c, v, rfl, hc⟩ | ⟨payload, rfl, hl⟩ := h.cases
  · rwa [packetOutput_run, List.length_replicate]
  · exact hl

/-- A packet has at least 2 stream bytes, and one for every 64 bytes of its output (R54, R99). -/
theorem StreamPacket.bytes_bounds {p : Instr} (h : StreamPacket p) :
    2 ≤ (packetBytes p).length ∧ (packetOutput p).length ≤ 64 * (packetBytes p).length := by
  obtain ⟨c, v, rfl, h1, h128⟩ | ⟨payload, rfl, h1, h128⟩ := h.cases
  · simpa [packetBytes_run] using h128
  · simp only [packetBytes_lit, packetOutput_lit, List.length_cons]
    omega

/-- The head of a packet is the first byte it expands to (R98). -/
theorem StreamPacket.head?_output {q : Instr} (h : StreamPacket q) (rest : List Byte) :
    (packetOutput q ++ rest).head? = packetHead q := by
  obtain ⟨c, v, rfl, hc, -⟩ | ⟨payload, rfl, hl, -⟩ := h.cases
  · obtain ⟨c, rfl⟩ := Nat.exists_eq_add_of_le' hc
    rfl
  · exact List.head?_append_of_ne_nil _ (List.length_pos_iff.mp hl)

/-- Decoding a stream expands its first packet (R78). -/
theorem dec_packetBytes_append {p : Instr} (h : StreamPacket p) (rest : List Byte) :
    dec (packetBytes p ++ rest) = (dec rest).map (packetOutput p ++ ·) := by
  obtain ⟨c, v, rfl, h1, h128⟩ | ⟨payload, rfl, h1, h128⟩ := h.cases
  · obtain ⟨hrun, hcount⟩ := runHeaderBits_fields c h1 h128
    simpa [packetBytes_run, hcount] using dec_run_cons (v := v) (rest := rest) hrun
  · obtain ⟨hlit, hcount⟩ := literalHeaderBits_fields payload.length h1 h128
    exact dec_lit_append hlit hcount.symm

theorem dec_encodeStream {ps : List Instr} (hall : ∀ p ∈ ps, StreamPacket p) :
    dec (encodeStream ps) = some (streamOutput ps) := by
  induction ps with
  | nil => rfl
  | cons p ps ih =>
    obtain ⟨hp, hps⟩ := List.forall_mem_cons.mp hall
    rw [encodeStream_cons, dec_packetBytes_append hp, ih hps]
    rfl

/-- A stream that decodes is a stream of packets (R95). -/
theorem exists_packets_of_dec {y z : List Byte} (hz : dec y = some z) :
    ∃ ps, (∀ p ∈ ps, StreamPacket p) ∧ encodeStream ps = y := by
  induction hlen : y.length using Nat.strong_induction_on generalizing y z with
  | _ n ih =>
    cases y with
    | nil => exact ⟨[], by simp, rfl⟩
    | cons h tl =>
      obtain ⟨⟨i, rest⟩, hd⟩ : ∃ r, decodePacket (h :: tl) = .ok r := by
        obtain hcut | ⟨hrun, v, rest, rfl⟩ | ⟨hlit, payload, rest, hl, rfl⟩ := stream_cases h tl
        · rw [dec_cut hcut] at hz
          cases hz
        · exact ⟨_, decodePacket_run hrun⟩
        · exact ⟨_, decodePacket_lit hlit (by simp [hl])⟩
      obtain ⟨hp, hw, hstood⟩ := readPacketStoodInTheStream _ _ _ hd
      rw [← hstood, dec_packetBytes_append ⟨hp, hw⟩] at hz
      obtain ⟨z', hz', -⟩ := Option.map_eq_some_iff.mp hz
      have hsize := StreamPacket.bytes_bounds ⟨hp, hw⟩
      have hshort := congrArg List.length hstood
      rw [List.length_append] at hshort
      obtain ⟨ps, hall, hps⟩ := ih rest.length (by omega) hz' rfl
      exact ⟨i :: ps, List.forall_mem_cons.mpr ⟨⟨hp, hw⟩, hall⟩, by rw [encodeStream_cons, hps, hstood]⟩

/-- A stream is of one list of packets only (R42, R48). -/
theorem encodeStream_injective {ps qs : List Instr} (hps : ∀ p ∈ ps, StreamPacket p) (hqs : ∀ q ∈ qs, StreamPacket q)
    (h : encodeStream ps = encodeStream qs) : ps = qs := by
  have hread {p : Instr} {ps : List Instr} (hall : ∀ q ∈ p :: ps, StreamPacket q) :
      decodePacket (encodeStream (p :: ps)) = .ok (p, encodeStream ps) :=
    decodePacket_packetBytes_append (hall p (by simp)).1 (hall p (by simp)).2 _
  induction ps generalizing qs with
  | nil =>
    cases qs with
    | nil => rfl
    | cons q qs => exact nomatch (congrArg decodePacket h).trans (hread hqs)
  | cons p ps ih =>
    cases qs with
    | nil => exact nomatch (congrArg decodePacket h).symm.trans (hread hps)
    | cons q qs =>
      have hfirst := ((hread hps).symm.trans (congrArg decodePacket h)).trans (hread hqs)
      simp only [Except.ok.injEq, Prod.mk.injEq] at hfirst
      rw [hfirst.1, ih (List.forall_mem_cons.mp hps).2 (List.forall_mem_cons.mp hqs).2 hfirst.2]

/-! ## The packet at the front of a byte sequence -/

/-- The packet can take no more of the bytes `rest` after its output. -/
def PacketMaximal : Instr → List Byte → Prop
  | .run c v, rest => c < 128 → rest.head? ≠ some v
  | .lit payload, rest =>
    payload.getLast? ≠ rest.head? ∧ (payload.length < 128 → rest = [] ∨ ∃ v tl, rest = v :: v :: tl)
  | _, _ => True

/-- The packet is the one that the encoder emits for its output followed by `rest` (R68). -/
structure FrontPacket (p : Instr) (rest : List Byte) : Prop where
  packet : StreamPacket p
  canonical : CanonicalPacket p
  maximal : PacketMaximal p rest

/-- In the output of a literal, and between it and what follows, no byte equals its successor. -/
theorem adjacent_differ_iff {payload : List Byte} (rest : List Byte) (hne : payload ≠ []) :
    (∀ k, k < payload.length → (payload ++ rest)[k]? ≠ (payload ++ rest)[k + 1]?) ↔
      payload.IsChain (· ≠ ·) ∧ payload.getLast? ≠ rest.head? := by
  induction payload with
  | nil => exact absurd rfl hne
  | cons a as ih =>
    cases as with
    | nil => simp [List.head?_eq_getElem?]
    | cons b bs =>
      rw [List.length_cons, Nat.forall_lt_succ_left', List.isChain_cons_cons, and_assoc]
      refine and_congr (by simp) ?_
      simpa using ih (by simp)

/-- A pair of equal bytes is not in the output of a literal, nor does it begin there. -/
theorem FrontPacket.no_pair {payload rest pre tl : List Byte} {v : Byte} (h : FrontPacket (.lit payload) rest)
    (hx : payload ++ rest = pre ++ v :: v :: tl) : payload.length ≤ pre.length := by
  obtain ⟨hlast, -⟩ := h.maximal
  by_contra hlt
  have hne : payload ≠ [] := fun hnil => hlt (hnil ▸ Nat.zero_le _)
  refine (adjacent_differ_iff rest hne).mpr ⟨h.canonical, hlast⟩ pre.length (Nat.not_le.mp hlt) ?_
  simp [hx]

section Unique
variable {p q : Instr} {rest rest' : List Byte} {c d : Nat} {v w : Byte} {payload payload' : List Byte}

/-- A front run is not shorter than another front run of the same bytes. -/
theorem FrontPacket.run_ge (h : FrontPacket (.run c v) rest) (h' : FrontPacket (.run d w) rest')
    (hx : List.replicate c v ++ rest = List.replicate d w ++ rest') : d ≤ c := by
  by_contra hlt
  obtain ⟨e, rfl⟩ := Nat.exists_eq_add_of_lt (Nat.not_le.mp hlt)
  obtain ⟨hc, -⟩ := wellFormed_run_iff.mp h.packet.2
  obtain ⟨-, hd⟩ := wellFormed_run_iff.mp h'.packet.2
  rw [Nat.add_assoc, List.replicate_add, List.append_assoc] at hx
  obtain ⟨hsame, hrest⟩ := List.append_inj hx (by simp)
  obtain rfl : v = w := (List.replicate_right_inj (by omega)).mp hsame
  exact h.maximal (by omega) (by simp [hrest, List.replicate_succ])

/-- A front literal is not shorter than another front literal of the same bytes. -/
theorem FrontPacket.lit_ge (h : FrontPacket (.lit payload) rest) (h' : FrontPacket (.lit payload') rest')
    (hx : payload ++ rest = payload' ++ rest') : payload'.length ≤ payload.length := by
  by_contra hlt
  obtain ⟨-, hmax⟩ := wellFormed_lit_iff.mp h'.packet.2
  obtain rfl | ⟨v, tl, rfl⟩ := h.maximal.2 (by omega)
  · have hlen := congrArg List.length hx
    simp at hlen
    omega
  · exact hlt (h'.no_pair hx.symm)

/-- A run opens with two equal bytes, and a literal does not. -/
theorem FrontPacket.run_ne_lit (h : FrontPacket (.run c v) rest) (h' : FrontPacket (.lit payload) rest') :
    List.replicate c v ++ rest ≠ payload ++ rest' := by
  intro hx
  obtain ⟨c, rfl⟩ := Nat.exists_eq_add_of_le' h.canonical
  obtain ⟨hpos, -⟩ := wellFormed_lit_iff.mp h'.packet.2
  exact absurd (h'.no_pair (pre := []) (v := v) hx.symm) (Nat.not_le.mpr hpos)

/-- A byte sequence has one front packet. -/
theorem FrontPacket.unique (h : FrontPacket p rest) (h' : FrontPacket q rest')
    (hx : packetOutput p ++ rest = packetOutput q ++ rest') : p = q ∧ rest = rest' := by
  obtain ⟨c, v, rfl, hc, -⟩ | ⟨payload, rfl, hl, -⟩ := h.packet.cases
  · obtain ⟨d, w, rfl, hd, -⟩ | ⟨payload', rfl, hl', -⟩ := h'.packet.cases
    · obtain rfl : c = d := (h'.run_ge h hx.symm).antisymm (h.run_ge h' hx)
      obtain ⟨hout, hrest⟩ := List.append_inj hx (by simp)
      exact ⟨congrArg _ ((List.replicate_right_inj (by omega)).mp hout), hrest⟩
    · exact absurd hx (h.run_ne_lit h')
  · obtain ⟨d, w, rfl, hd, -⟩ | ⟨payload', rfl, hl', -⟩ := h'.packet.cases
    · exact absurd hx.symm (h'.run_ne_lit h)
    · obtain ⟨hout, hrest⟩ := List.append_inj hx ((h'.lit_ge h hx.symm).antisymm (h.lit_ge h' hx))
      exact ⟨congrArg _ hout, hrest⟩

end Unique

/-- What differs from its successor inside a byte sequence (R65). -/
theorem differs_bytesOf {x : List Byte} {j : Nat} (hj : j < x.length) {d : Bool}
    (hd : differs (bytesOf x) x.length j = some d) : d = true ↔ x[j]? ≠ x[j + 1]? := by
  cases d with
  | false => simp [(differs_bytesOf_false_iff.mp hd).2]
  | true =>
    refine ⟨fun _ heq => ?_, fun _ => rfl⟩
    have hnext : j + 1 < x.length := by
      rw [List.getElem?_eq_getElem hj] at heq
      exact (List.getElem?_eq_some_iff.mp heq.symm).1
    exact differs_bytesOf_true hd hnext heq

/-- A run found at the front of a byte sequence is its front packet (R66). -/
theorem frontPacket_of_runScan {x : List Byte} {v : Byte} {r : Nat} (hr : runScan (bytesOf x) x.length 0 = some r)
    (h2 : 2 ≤ r) (hv : x[0]? = some v) :
    FrontPacket (.run r v) (x.drop r) ∧ List.replicate r v = x.take r := by
  obtain ⟨-, hmax, -, hstop⟩ := runScan_spec hr
  have hend := runScan_le hr (List.getElem?_eq_some_iff.mp hv).1
  have hequal (k : Nat) (hk : k < r) : x[k]? = some v := by simpa [hv] using runScan_bytes hr k hk
  refine ⟨⟨streamPacket_run (by omega) hmax, h2, fun hlt => ?_⟩, List.ext_getElem? fun k => ?_⟩
  · have hdiffers := (differs_bytesOf (by omega) (hstop.resolve_left hlt.ne)).mp rfl
    rwa [Nat.zero_add, hequal (r - 1) (by omega), Nat.sub_add_cancel (by omega), ne_comm, ← List.head?_drop] at hdiffers
  · by_cases hk : k < r
    · rw [List.getElem?_take_of_lt hk, hequal k hk, List.getElem?_replicate_of_lt hk]
    · simp [hk]

/-- A literal found at the front of a byte sequence is its front packet (R67). -/
theorem frontPacket_of_litScan {x : List Byte} {l : Nat} (hl : litScan (bytesOf x) x.length 0 = some l)
    (hpos : 1 ≤ l) : FrontPacket (.lit (x.take l)) (x.drop l) := by
  obtain ⟨hmax, hend, hdiffer, hstop⟩ := litScan_spec hl (Nat.zero_le _)
  simp only [Nat.zero_add] at hend hdiffer hstop
  have hlen : (x.take l).length = l := List.length_take_of_le hend
  have hne : x.take l ≠ [] := List.length_pos_iff.mp (by omega)
  obtain ⟨hchain, hlast⟩ := (adjacent_differ_iff (x.drop l) hne).mp fun k hk => by
    rw [List.take_append_drop]
    exact (differs_bytesOf (by omega) (hdiffer k (by omega))).mp rfl
  refine ⟨streamPacket_lit (by omega) (by omega), hchain, hlast, fun hlt => ?_⟩
  rcases hstop with hcap | hall | hpair
  · omega
  · exact .inl (List.drop_eq_nil_iff.mpr hall.ge)
  · obtain ⟨hnext, heq⟩ := differs_bytesOf_false_iff.mp hpair
    rw [List.getElem?_eq_getElem (by omega), List.getElem?_eq_getElem hnext, Option.some_inj] at heq
    exact .inr ⟨x[l + 1], x.drop (l + 1 + 1), by
      rw [List.drop_eq_getElem_cons (by omega), heq, List.drop_eq_getElem_cons hnext]⟩

/-- The group at the front of a byte sequence is its front packet (R66 to R70). -/
theorem exists_frontPacket_of_group {x bs : List Byte} {g : Kind × Nat} (hx : x ≠ [])
    (hg : group (bytesOf x) x.length 0 = some g) (hbs : groupBytes (bytesOf x) 0 g = some bs) :
    ∃ p, FrontPacket p (x.drop g.2) ∧ packetOutput p = x.take g.2 ∧ packetBytes p = bs := by
  have h0 : 0 < x.length := List.length_pos_iff.mpr hx
  obtain ⟨hpos, hmax, hend, -⟩ := group_bounds hg h0
  rcases group_cases hg with ⟨r, hr, h2, rfl⟩ | ⟨l, hr, hl, rfl⟩
  · have hv := List.getElem?_eq_getElem h0
    obtain ⟨hp, hout⟩ := frontPacket_of_runScan hr h2 hv
    exact ⟨_, hp, hout, Option.some.inj ((groupBytes_run h2 hmax hv).symm.trans hbs)⟩
  · have hpayload := readBytes_bytesOf (x := x) hend
    have hlen : (x.take l).length = l := List.length_take_of_le (by omega)
    refine ⟨_, frontPacket_of_litScan hl hpos, rfl, ?_⟩
    rw [packetBytes_lit, hlen]
    exact Option.some.inj ((groupBytes_lit hpos hmax hpayload).symm.trans hbs)

/-- A byte sequence that is not empty has a front packet, and the encoder emits it (R72). -/
theorem exists_frontPacket {x : List Byte} (hx : x ≠ []) :
    ∃ p rest, FrontPacket p rest ∧ packetOutput p ++ rest = x ∧ enc x = packetBytes p ++ enc rest := by
  obtain ⟨g, bs, hg, hbs, -, -, -, henc⟩ := enc_step hx
  obtain ⟨p, hp, hout, hbytes⟩ := exists_frontPacket_of_group hx hg hbs
  exact ⟨p, x.drop g.2, hp, by rw [hout, List.take_append_drop], by rw [hbytes, henc]⟩

/-- The encoder emits the front packet (R72). -/
theorem FrontPacket.enc_append {p : Instr} {rest : List Byte} (h : FrontPacket p rest) :
    enc (packetOutput p ++ rest) = packetBytes p ++ enc rest := by
  have hpos := h.packet.output_bounds.1
  have hne : packetOutput p ++ rest ≠ [] := List.length_pos_iff.mp (by rw [List.length_append]; omega)
  obtain ⟨q, rest', hq, hx, henc⟩ := exists_frontPacket hne
  obtain ⟨rfl, rfl⟩ := hq.unique h hx
  exact henc

/-! ## The packets of a canonical stream (R98) -/

section Canonical
variable {p q : Instr} {ps : List Instr} {rest : List Byte}

theorem CanonicalPackets.head (h : CanonicalPackets (p :: ps)) : CanonicalPacket p := h.1 p (by simp)

theorem CanonicalPackets.tail (h : CanonicalPackets (p :: ps)) : CanonicalPackets ps :=
  ⟨fun q hq => h.1 q (List.mem_cons_of_mem p hq), h.2.tail⟩

/-- With nothing after it a packet can take no more. -/
theorem StreamPacket.maximal_nil (h : StreamPacket p) : PacketMaximal p [] := by
  obtain ⟨c, v, rfl, -⟩ | ⟨payload, rfl, hl, -⟩ := h.cases
  · exact fun _ => nofun
  · have hne : payload ≠ [] := List.length_pos_iff.mp hl
    exact ⟨by simpa using hne, fun _ => .inl rfl⟩

/-- The conditions of R98 on two packets say that the first can take nothing of the second. -/
theorem maximal_of_canonicalPair (hq : StreamPacket q) (hcanon : CanonicalPacket q) (h : CanonicalPair p q) :
    PacketMaximal p (packetOutput q ++ rest) := by
  cases p with
  | run c v => intro hc; rw [hq.head?_output]; exact h hc
  | lit payload =>
    refine ⟨by rw [hq.head?_output]; exact h.1, fun hl => ?_⟩
    obtain ⟨c, v, rfl⟩ := h.2 hl
    obtain ⟨c, rfl⟩ := Nat.exists_eq_add_of_le' hcanon
    exact .inr ⟨v, _, rfl⟩
  | enc | dec | pes | pds => trivial

/-- A packet that can take nothing of the front packet after it meets the conditions of R98 with it. -/
theorem FrontPacket.canonicalPair (hq : FrontPacket q rest) (h : PacketMaximal p (packetOutput q ++ rest)) :
    CanonicalPair p q := by
  have hhead := hq.packet.head?_output rest
  cases p with
  | run c v => intro hc; rw [← hhead]; exact h hc
  | lit payload =>
    refine ⟨by rw [← hhead]; exact h.1, fun hl => ?_⟩
    obtain ⟨c, v, rfl, -⟩ | ⟨payload', rfl, hpos, -⟩ := hq.packet.cases
    · exact ⟨c, v, rfl⟩
    · obtain hnil | ⟨v, tl, hpair⟩ := h.2 hl
      · exact absurd (List.append_eq_nil_iff.mp hnil).1 (List.length_pos_iff.mp hpos)
      · exact absurd (hq.no_pair (pre := []) hpair) (Nat.not_le.mpr hpos)
  | enc | dec | pes | pds => trivial

/-- The first of canonical packets is the front packet of their output. -/
theorem CanonicalPackets.frontPacket (h : CanonicalPackets (p :: ps)) (hall : ∀ q ∈ p :: ps, StreamPacket q) :
    FrontPacket p (streamOutput ps) := by
  obtain ⟨hp, hps⟩ := List.forall_mem_cons.mp hall
  refine ⟨hp, h.head, ?_⟩
  cases ps with
  | nil => exact hp.maximal_nil
  | cons q qs =>
    exact maximal_of_canonicalPair (hps q (by simp)) h.tail.head (List.isChain_cons_cons.mp h.2).1

/-- A front packet before canonical packets is one of them. -/
theorem CanonicalPackets.cons (h : CanonicalPackets ps) (hall : ∀ q ∈ ps, StreamPacket q)
    (hp : FrontPacket p (streamOutput ps)) : CanonicalPackets (p :: ps) := by
  refine ⟨List.forall_mem_cons.mpr ⟨hp.canonical, h.1⟩, ?_⟩
  cases ps with
  | nil => exact .singleton p
  | cons q qs => exact .cons_cons ((h.frontPacket hall).canonicalPair hp.maximal) h.2

/-- The encoding of what canonical packets expand to is their stream. -/
theorem CanonicalPackets.enc_output (h : CanonicalPackets ps) (hall : ∀ q ∈ ps, StreamPacket q) :
    enc (streamOutput ps) = encodeStream ps := by
  induction ps with
  | nil => rfl
  | cons p ps ih =>
    rw [streamOutput_cons, (h.frontPacket hall).enc_append, ih h.tail (List.forall_mem_cons.mp hall).2,
      encodeStream_cons]

/-- Every byte sequence is the output of canonical packets: front packet after front packet. -/
theorem exists_canonicalPackets (x : List Byte) :
    ∃ ps, (∀ p ∈ ps, StreamPacket p) ∧ CanonicalPackets ps ∧ streamOutput ps = x := by
  induction hlen : x.length using Nat.strong_induction_on generalizing x with
  | _ n ih =>
    by_cases hx : x = []
    · exact ⟨[], by simp, ⟨by simp, .nil⟩, hx.symm⟩
    · obtain ⟨p, rest, hp, rfl, -⟩ := exists_frontPacket hx
      have hpos := hp.packet.output_bounds.1
      rw [List.length_append] at hlen
      obtain ⟨ps, hall, hcanon, rfl⟩ := ih rest.length (by omega) rest rfl
      exact ⟨p :: ps, List.forall_mem_cons.mpr ⟨hp.packet, hall⟩, hcanon.cons hall hp, rfl⟩

/-- The encoder emits the stream of canonical packets whose output is its input. -/
theorem exists_packets_of_enc (x : List Byte) :
    ∃ ps, (∀ p ∈ ps, StreamPacket p) ∧ CanonicalPackets ps ∧ streamOutput ps = x ∧ enc x = encodeStream ps := by
  obtain ⟨ps, hall, hcanon, rfl⟩ := exists_canonicalPackets x
  exact ⟨ps, hall, hcanon, rfl, hcanon.enc_output hall⟩

end Canonical

/-- Settles O13: the packets that the encoder emits expand to its input. -/
theorem roundTripLaw : Obligations.RoundTripLaw := by
  intro x
  obtain ⟨ps, hall, -, hout, henc⟩ := exists_packets_of_enc x
  rw [henc, dec_encodeStream hall, hout]

/-- Settles O17: an encoder output decodes, to its input. -/
theorem encoderOutputIsValid : Obligations.EncoderOutputIsValid :=
  fun x => ⟨(validStream_iff_dec _).mpr ⟨x, roundTripLaw x⟩, (length_of_dec (roundTripLaw x)).symm⟩

/-- A stream of packets is canonical when its packets are: they are the encoder's for what they expand to, and no other
packets make the same stream. -/
theorem canonicalStream_encodeStream_iff {ps : List Instr} (hall : ∀ p ∈ ps, StreamPacket p) :
    CanonicalStream (encodeStream ps) ↔ CanonicalPackets ps := by
  rw [CanonicalStream, dec_encodeStream hall, Option.map_some, Option.some_inj]
  refine ⟨fun h => ?_, fun h => h.enc_output hall⟩
  obtain ⟨qs, hqs, hcanon, -, henc⟩ := exists_packets_of_enc (streamOutput ps)
  rwa [encodeStream_injective hall hqs (h.symm.trans henc)]

/-- Settles O23: canonical packets are the encoder's, one front packet after another. -/
theorem canonicalStreamsAreTheFiveConditions : Obligations.CanonicalStreamsAreTheFiveConditions := by
  refine ⟨fun y hy => ?_, fun _ => canonicalStream_encodeStream_iff,
    fun x => ⟨(encoderOutputIsValid x).1, ?_⟩, by decide⟩
  · obtain ⟨z, hz⟩ := (validStream_iff_dec y).mp hy
    exact exists_packets_of_dec hz
  · rw [CanonicalStream, roundTripLaw x, Option.map_some]

end Sys2Proof.Machine

/-! # The sizes (R88, R99)

An encoding is the stream of canonical packets. A run covers as many bytes as its packet has, or more; a literal costs
its header, which the run that has to follow it, with at least 2 bytes, and its own byte pay for. -/

namespace Sys2Proof.Machine

section Sizes
variable {ps : List Instr}

/-- At most 128 bytes are covered by every 2 bytes of a stream (R99). -/
theorem two_mul_ceil_le_length_encodeStream (hall : ∀ p ∈ ps, StreamPacket p) :
    2 * (((streamOutput ps).length + 127) / 128) ≤ (encodeStream ps).length := by
  induction ps with
  | nil => decide
  | cons p ps ih =>
    obtain ⟨hp, hps⟩ := List.forall_mem_cons.mp hall
    have hbytes := hp.bytes_bounds.1
    have hout := hp.output_bounds.2
    have hrest := ih hps
    rw [streamOutput_cons, encodeStream_cons, List.length_append, List.length_append]
    omega

theorem length_streamOutput_le (hall : ∀ p ∈ ps, StreamPacket p) :
    (streamOutput ps).length ≤ 64 * (encodeStream ps).length := by
  induction ps with
  | nil => decide
  | cons p ps ih =>
    obtain ⟨hp, hps⟩ := List.forall_mem_cons.mp hall
    have hbytes := hp.bytes_bounds.2
    have hrest := ih hps
    rw [streamOutput_cons, encodeStream_cons, List.length_append, List.length_append]
    omega

/-- A literal is capped, or what follows it begins with a run or is nothing (R98). -/
theorem CanonicalPackets.after_lit {payload : List Byte} (h : CanonicalPackets (.lit payload :: ps)) :
    128 ≤ payload.length ∨ ps = [] ∨ ∃ c v qs, ps = .run c v :: qs := by
  by_cases hcap : 128 ≤ payload.length
  · exact .inl hcap
  · cases ps with
    | nil => exact .inr (.inl rfl)
    | cons q qs =>
      obtain ⟨c, v, rfl⟩ := (List.isChain_cons_cons.mp h.2).1.2 (Nat.not_le.mp hcap)
      exact .inr (.inr ⟨c, v, qs, rfl⟩)

/-- Canonical packets cost at most a third more than their output, but for a literal that begins or ends them (R99). -/
theorem CanonicalPackets.length_encodeStream_le (h : CanonicalPackets ps) (hall : ∀ p ∈ ps, StreamPacket p) :
    3 * (encodeStream ps).length ≤ 4 * (streamOutput ps).length + 2 ∧
    (ps = [] ∨ (∃ c v qs, ps = .run c v :: qs) → 3 * (encodeStream ps).length ≤ 4 * (streamOutput ps).length) := by
  induction ps with
  | nil => exact ⟨by decide, fun _ => by decide⟩
  | cons p ps ih =>
    obtain ⟨hp, hps⟩ := List.forall_mem_cons.mp hall
    obtain ⟨hrest, hrun⟩ := ih h.tail hps
    rw [streamOutput_cons, encodeStream_cons, List.length_append, List.length_append]
    obtain ⟨c, v, rfl, -⟩ | ⟨payload, rfl, hpos, -⟩ := hp.cases
    · have hc : 2 ≤ c := h.head
      simp only [packetBytes_run, packetOutput_run, List.length_replicate, List.length_cons, List.length_nil]
      omega
    · simp only [packetBytes_lit, packetOutput_lit, List.length_cons]
      obtain hcap | hnext := h.after_lit
      · exact ⟨by omega, by simp⟩
      · have hpaid := hrun hnext
        exact ⟨by omega, by simp⟩

end Sizes

/-- The packets of the input that reaches the upper bound (R99). -/
theorem canonicalPackets_tight {a b : Byte} (h : a ≠ b) :
    CanonicalPackets [.lit [a], .run 2 b, .lit [a], .run 2 b, .lit [a]] := by
  simp [CanonicalPackets, CanonicalPacket, CanonicalPair, packetHead, h]

/-- Settles O18: the bounds on canonical packets and on the packet walk. -/
theorem sizesAreBounded : Obligations.SizesAreBounded := by
  have hlength (x : List Byte) : pes x = (enc x).length := (encodedLengthIsPredicted.1 x).symm
  refine ⟨fun x => ?_, fun a b hab => ?_, fun y => pdsFrom_bounds y 0, fun y z _ hz => ⟨length_of_dec hz, ?_⟩⟩
  · obtain ⟨ps, hall, hcanon, rfl, henc⟩ := exists_packets_of_enc x
    have hupper := (hcanon.length_encodeStream_le hall).1
    rw [hlength, henc]
    exact ⟨by omega, two_mul_ceil_le_length_encodeStream hall⟩
  · rw [hlength]
    have hlit := streamPacket_lit (payload := [a]) (by simp) (by simp)
    have hrun := streamPacket_run (c := 2) (v := b) (by decide) (by decide)
    refine congrArg List.length ((canonicalPackets_tight hab).enc_output ?_)
    simp only [List.forall_mem_cons]
    exact ⟨hlit, hrun, hlit, hrun, hlit, nofun⟩
  · obtain ⟨ps, hall, rfl⟩ := exists_packets_of_dec hz
    obtain rfl := Option.some.inj ((dec_encodeStream hall).symm.trans hz)
    exact length_streamOutput_le hall

end Sys2Proof.Machine

/-! # Long stretches and the length 128 (R43, R44, R69, R70, R90 to R93)

A run takes at most 128 bytes, so a longer stretch comes off 128 by 128; the length 128 leaves the 7 bits of the length
field 0. -/

namespace Sys2Proof.Machine

/-! ## Headers and single packets -/

theorem literalHeaderBits_eq (n : Nat) : literalHeaderBits n = BitVec.ofNat 8 (n % 128) := by
  rw [← BitVec.toNat_inj, literalHeaderBits_toNat, BitVec.toNat_ofNat]
  omega

theorem runHeaderBits_eq (n : Nat) : runHeaderBits n = 0x80#8 ||| BitVec.ofNat 8 (n % 128) := by
  rw [← literalHeaderBits_eq]
  rfl

/-- The length 128 is stored as 0 (R91). -/
theorem packetBytes_lit_max {b : List Byte} (hb : b.length = 128) : packetBytes (.lit b) = 0x00 :: b := by
  rw [packetBytes_lit, hb]
  rfl

theorem FrontPacket.enc_output {p : Instr} (h : FrontPacket p []) : enc (packetOutput p) = packetBytes p := by
  simpa [show enc [] = [] from rfl] using h.enc_append

theorem dec_packetBytes {p : Instr} (h : StreamPacket p) : dec (packetBytes p) = some (packetOutput p) := by
  simpa [show dec [] = some [] from rfl] using dec_packetBytes_append h []

/-- A capped run takes 128 equal bytes, whatever follows (R66). -/
theorem frontPacket_cappedRun (v : Byte) (rest : List Byte) : FrontPacket (.run 128 v) rest where
  packet := streamPacket_run (by decide) (by decide)
  canonical := by simp [CanonicalPacket]
  maximal h := absurd h (by decide)

/-! ## A stretch of equal bytes -/

section Stretch
variable {v : Byte} {rest : List Byte}

/-- 2 to 127 equal bytes are a run when another byte follows, or nothing (R66). -/
theorem enc_endedRun {c : Nat} (h2 : 2 ≤ c) (hc : c < 128) (hrest : rest.head? ≠ some v) :
    enc (List.replicate c v ++ rest) = [0x80#8 ||| BitVec.ofNat 8 c, v] ++ enc rest := by
  have hheader := runHeaderBits_eq c
  rw [Nat.mod_eq_of_lt hc] at hheader
  rw [← hheader]
  exact FrontPacket.enc_append ⟨streamPacket_run (by omega) hc.le, h2, fun _ => hrest⟩

/-- A byte that its successor does not equal is emitted at the front of a literal (R67, R90). -/
theorem enc_single (hrest : rest.head? ≠ some v) :
    ∃ l tail, 1 ≤ l ∧ l ≤ 128 ∧ enc (v :: rest) = BitVec.ofNat 8 (l % 128) :: v :: tail := by
  obtain ⟨p, rest', hp, hx, henc⟩ := exists_frontPacket (List.cons_ne_nil v rest)
  obtain ⟨c, w, rfl, -⟩ | ⟨payload, rfl, hpos, hmax⟩ := hp.packet.cases
  · obtain ⟨c, rfl⟩ := Nat.exists_eq_add_of_le' hp.canonical
    obtain ⟨rfl, rfl⟩ := List.cons.inj hx
    exact absurd rfl hrest
  · obtain ⟨a, as, rfl⟩ := List.exists_cons_of_length_pos hpos
    obtain ⟨rfl, -⟩ := List.cons.inj hx
    refine ⟨_, as ++ enc rest', hpos, hmax, ?_⟩
    rw [henc, packetBytes_lit, literalHeaderBits_eq]
    rfl

/-- A stretch of equal bytes, run by run (R90). -/
theorem enc_stretch (hrest : rest.head? ≠ some v) (q r : Nat) (hr : r < 128) :
    enc (List.replicate (128 * q + r) v ++ rest) =
      (List.replicate q [0x80#8, v]).flatten ++
        (if r = 0 then enc rest
         else if 2 ≤ r then [0x80#8 ||| BitVec.ofNat 8 r, v] ++ enc rest
         else enc (v :: rest)) := by
  induction q with
  | zero =>
    rw [Nat.mul_zero, Nat.zero_add, List.replicate_zero, List.flatten_nil, List.nil_append]
    split
    · rename_i h0
      rw [h0, List.replicate_zero, List.nil_append]
    · split
      · rename_i h2
        exact enc_endedRun h2 hr hrest
      · obtain rfl : r = 1 := by omega
        rfl
  | succ q ih =>
    rw [show 128 * (q + 1) + r = 128 + (128 * q + r) by omega, List.replicate_add, List.append_assoc]
    exact ((frontPacket_cappedRun v _).enc_append).trans (congrArg ([0x80, v] ++ ·) ih)

end Stretch

/-- Settles O19: the whole runs come off one by one; what is left is a run, a literal's first byte, or nothing. -/
theorem runsAreCappedAt128 : Obligations.RunsAreCappedAt128 := by
  have hstretch (v : Byte) (m : Nat) (rest : List Byte) (hrest : rest.head? ≠ some v) :=
    Nat.div_add_mod m 128 ▸ enc_stretch hrest (m / 128) (m % 128) (Nat.mod_lt m (by decide))
  have hexample := hstretch 0xAA 200 [] nofun
  rw [List.append_nil] at hexample
  exact ⟨hstretch, fun v rest => enc_single, hexample.trans (by decide)⟩

/-- Settles O20: a run and a literal of 128 bytes are front packets, and their headers' length field is 0. -/
theorem length128IsStoredAsZero : Obligations.Length128IsStoredAsZero := by
  refine ⟨fun v => ?_, fun b hb => ?_, fun b hb hchain => ?_⟩
  · have hrun := frontPacket_cappedRun v []
    exact ⟨hrun.enc_output, dec_packetBytes hrun.packet⟩
  · rw [← packetBytes_lit_max hb]
    exact dec_packetBytes (streamPacket_lit (by omega) hb.le)
  · rw [← packetBytes_lit_max hb]
    have hlit := streamPacket_lit (payload := b) (by omega) hb.le
    exact FrontPacket.enc_output ⟨hlit, hchain, hlit.maximal_nil⟩

/-- Settles O21: the examples are small enough to be evaluated. -/
theorem examplesOfTheDocument : Obligations.ExamplesOfTheDocument := by
  unfold Obligations.ExamplesOfTheDocument
  decide

end Sys2Proof.Machine

/-! # Progress, safety and the empty input (R94, R101, R102, R106)

A packet step covers at least one byte of the input and no more than are left. With the input written every byte it
needs has a value, and the invariant leaves it room for what it writes. -/

namespace Sys2Proof.Machine

/-! ## Progress -/

/-- The step from `s` to `t` goes on with the pass and moves the cursor forward inside the input, or ends the operation
with `MalformedStream` (R102). -/
def State.Progresses (s t : State) : Prop :=
  (t.status = .busy ∧ s.ip < t.ip ∧ t.ip ≤ t.inLen ∧ t.phase = s.phase) ∨ t.status = .errMalformed

section Progress
variable {s t : State}

theorem encodedSizeStep_progresses (hb : s.status = .busy) (hi : s.ip < s.inLen) (ht : encodedSizeStep s = .next t) :
    s.Progresses t := by
  obtain ⟨g, hg, rfl⟩ := encodedSizeStep_next ht
  obtain ⟨hpos, -, hend, -⟩ := group_bounds hg hi
  exact .inl ⟨hb, Nat.lt_add_of_pos_right hpos, hend, rfl⟩

theorem decodedSizeStep_progresses (hb : s.status = .busy) (hi : s.ip < s.inLen) (ht : decodedSizeStep s = .next t) :
    s.Progresses t := by
  obtain ⟨hd, -, rfl⟩ := decodedSizeStep_next ht
  have hpacket := two_le_packetSize hd
  exact .inl ⟨hb, Nat.lt_min.mpr ⟨by omega, hi⟩, Nat.min_le_right _ _, rfl⟩

theorem encoderFillStep_progresses (hb : s.status = .busy) (hi : s.ip < s.inLen) (ht : encoderFillStep s = .next t) :
    s.Progresses t := by
  obtain ⟨g, _, hg, -, -, rfl⟩ := encoderFillStep_next ht
  obtain ⟨hpos, -, hend, -⟩ := group_bounds hg hi
  exact .inl ⟨hb, Nat.lt_add_of_pos_right hpos, hend, rfl⟩

theorem decoderFillStep_progresses (hb : s.status = .busy) (ht : decoderFillStep s = .next t) : s.Progresses t := by
  obtain ⟨hd, -, ⟨-, rfl⟩ | ⟨hend, _, -, -, -, -, rfl⟩⟩ := decoderFillStep_next ht
  · exact .inr rfl
  · have hpacket := two_le_packetSize hd
    exact .inl ⟨hb, Nat.lt_add_of_pos_right (by omega), hend, rfl⟩

/-- Before the end of the input a row of the sequencing table takes its packet step. -/
theorem sequence_progresses {code : CommandCode} {sizeStep endSize fillStep endFill : State → Out}
    (hb : s.status = .busy) (hop : s.op = code) (hi : s.ip < s.inLen)
    (ht : sequence code sizeStep endSize fillStep endFill s = .next t)
    (hsize : sizeStep s = .next t → s.Progresses t) (hfill : fillStep s = .next t → s.Progresses t) :
    s.Progresses t := by
  rcases sequence_next ht with ⟨hb', -⟩ | ⟨-, hop', -⟩ | ⟨-, -, -, -, ht⟩ | ⟨-, -, -, hend, -⟩ | ⟨-, -, -, -, ht⟩ |
    ⟨-, -, -, hend, -⟩
  · exact absurd hb hb'
  · exact absurd hop hop'
  · exact hsize ht
  · exact absurd hi (Nat.not_lt.mpr hend)
  · exact hfill ht
  · exact absurd hi (Nat.not_lt.mpr hend)

theorem exec_command_progresses (hb : s.status = .busy) (hi : s.ip < s.inLen)
    (ht : exec (decodeCommand s.op) s = .next t) : s.Progresses t := by
  rcases op_cases s.op with hop | hop | hop | hop <;> rw [hop] at ht
  · exact sequence_progresses hb hop hi ((exec_enc s).symm.trans ht) (encodedSizeStep_progresses hb hi)
      (encoderFillStep_progresses hb hi)
  · exact sequence_progresses hb hop hi ((exec_dec s).symm.trans ht) (decodedSizeStep_progresses hb hi)
      (decoderFillStep_progresses hb)
  · exact sequence_progresses hb hop hi ((exec_pes s).symm.trans ht) (encodedSizeStep_progresses hb hi) nofun
  · exact sequence_progresses hb hop hi ((exec_pds s).symm.trans ht) (decodedSizeStep_progresses hb hi) nofun

end Progress

/-- Settles O54: what a packet covers is at least a byte, and the cursor is clamped, or the packet cut short raises. -/
theorem packetStepsMakeProgress : Obligations.PacketStepsMakeProgress := by
  intro s t hhost hb hi ht
  rw [step_noMove hhost, engineStep_busy hb] at ht
  exact exec_command_progresses hb hi ht

/-! ## Safety -/

section Safety
variable {s : State} {x : List Byte}

theorem State.SizePass.safeStep (h : s.SizePass x) : s.SafeStep := by
  by_cases hi : s.ip < s.inLen
  · obtain ⟨_, _, hstep, -⟩ := h.step_charges hi
    exact ⟨_, hstep⟩
  · have hop : (s.op = 0 ∨ s.op = 1) ∨ (s.op = 2 ∨ s.op = 3) := or_assoc.mpr (op_cases s.op)
    rcases hop with hop | hop
    · exact ⟨_, h.step_eq.trans (exec_endSizePass hop h.busy rfl h.phase hi)⟩
    · exact ⟨_, h.step_eq.trans (exec_endPrediction hop h.busy rfl h.phase hi)⟩

/-- In a fill pass with room for all that is left of the predicted size, no step stops. -/
theorem State.FillPass.safeStep (h : s.FillPass x) (hop : s.op = 0 ∨ s.op = 1)
    (hroom : s.wp + remainingSize s.op x s.ip ≤ s.outCap) : s.SafeStep := by
  by_cases hi : s.ip < s.inLen
  · rcases hop with hop | hop <;> rw [hop] at hroom
    · have hleft : (encFrom x x.length s.ip).length = remainingSize 0 x s.ip := length_encFrom x x.length s.ip
      obtain ⟨_, _, hstep, -⟩ := h.step_emits hop hi (hleft ▸ hroom)
      exact ⟨_, hstep⟩
    · obtain ⟨-, hstep⟩ | ⟨_, _, hstep, -⟩ := h.step_decodes hop hi hroom
      · exact ⟨_, hstep⟩
      · exact ⟨_, hstep⟩
  · exact ⟨_, h.step_eq.trans (exec_endFillPass hop h.busy rfl h.phase hi)⟩

end Safety

/-- Settles O55: the invariant makes the running operation a size pass, or a fill pass with room for what is left. -/
theorem operationsAreNeverStuck : Obligations.OperationsAreNeverStuck := by
  rintro s h hhost hb ⟨x, hx⟩
  have hip := h.ip_le hb
  cases hp : s.phase with
  | idle => exact absurd hp (h.busy_iff.mp hb)
  | size => exact State.SizePass.safeStep ⟨hb, hp, hhost, hx, hip⟩
  | fill =>
    obtain ⟨-, hcap, -⟩ := h.fill_bound hp
    have hexact := h.fill_exact hp x (inputAgrees_of_input hx)
    exact State.FillPass.safeStep ⟨hb, hp, hhost, hx, hip⟩ (h.fill_op hp) (hexact.trans_le hcap)

/-! ## The empty input -/

section Empty
variable {s : State} {code : CommandCode}

theorem input_of_empty (h : s.inLen = 0) : s.input = some [] :=
  input_eq_some.mpr ⟨h.symm, fun k => by simp [State.inByte, h]⟩

/-- `ENC` and `DEC` of the empty input end their size pass, with nothing predicted, and then their fill pass (R94). -/
theorem emptyFill_operation (hcode : code = 0 ∨ code = 1) (hb : s.status ≠ .busy) (hhost : s.host = [])
    (hempty : s.inLen = 0) :
    s.Operation (decodeCommand code) fun t => t.status = .done ∧ t.result = 0 ∧ t.outMem = s.outMem := by
  have hx := input_of_empty hempty
  have hnone : remainingSize code [] 0 = 0 := remainingSize_past code (Nat.zero_le 0)
  obtain ⟨k, hk, hsize⟩ := runs_endSizePass hcode hhost hx
  rw [endSizePass_sized_fills (hnone.trans_le (Nat.zero_le _))] at hsize
  have hpass := filling_fillPass hhost hx code
  have hend : ¬ (s.filling code []).ip < (s.filling code []).inLen := Nat.not_lt.mpr (hempty.trans_le (Nat.zero_le _))
  have hlast := hpass.step_eq.trans (exec_endFillPass hcode hpass.busy rfl hpass.phase hend)
  exact operation_of_runsBusy hb (hsize.snoc hpass.busy hlast) (by omega) (by simp) ⟨rfl, rfl, rfl⟩

/-- `PES` and `PDS` of the empty input predict 0 (R94). -/
theorem emptyPrediction_operation (hcode : code = 2 ∨ code = 3) (hb : s.status ≠ .busy) (hhost : s.host = [])
    (hempty : s.inLen = 0) :
    s.Operation (decodeCommand code) fun t => t.status = .done ∧ t.result = 0 ∧ t.outMem = s.outMem := by
  refine (prediction_operation hcode hb hhost (input_of_empty hempty)).imp ?_
  rintro t ⟨hdone, hresult, hout, -⟩
  exact ⟨hdone, hresult.trans (remainingSize_past code (Nat.zero_le 0)), hout⟩

end Empty

/-- Settles O60: each operation goes through its passes without a packet step. -/
theorem emptyInputGivesEmptyOutput : Obligations.EmptyInputGivesEmptyOutput := by
  refine ⟨rfl, rfl, rfl, rfl, fun s hb hhost hempty => ?_⟩
  simp only [List.forall_mem_cons]
  exact ⟨emptyFill_operation (.inl rfl) hb hhost hempty, emptyFill_operation (.inr rfl) hb hhost hempty,
    emptyPrediction_operation (.inl rfl) hb hhost hempty, emptyPrediction_operation (.inr rfl) hb hhost hempty, nofun⟩

end Sys2Proof.Machine

/-! # The exceptions (R103 to R106, R109, R110, R117)

`MalformedStream` comes only from a packet cut short, and its header tells; `AllocationFailure` only from the end of
the size pass. Taking either ends the operation, and the engine then keeps its state. -/

namespace Sys2Proof.Machine

/-! ## A packet cut short (R104) -/

section CutShort
variable {s : State} {h : Byte}

/-- "Payload past end" by the kind of the packet (R104). -/
theorem payloadPastEnd_packetSize_iff : s.payloadPastEnd (packetSize h) ↔
    (if isRun h then s.inLen ≤ s.ip + 1 else s.inLen < s.ip + 1 + count h) := by
  cases hr : isRun h with
  | true =>
    rw [packetSize_run hr, if_pos rfl]
    exact Nat.lt_succ_iff
  | false => rw [packetSize_lit hr, if_neg Bool.false_ne_true, Nat.add_assoc]

/-- A decoder fill step that emits keeps the engine busy, so one that raises has found its packet cut short. -/
theorem payloadPastEnd_of_decoderFillStep_raises (hb : s.status = .busy) (hh : s.inByte s.ip = some h)
    (hraise : decoderFillStep s = .next (s.raise .malformedStream)) : s.payloadPastEnd (packetSize h) := by
  obtain ⟨hd, hhd, ⟨hcut, -⟩ | ⟨-, _, -, -, -, -, hemit⟩⟩ := decoderFillStep_next hraise
  · obtain rfl : h = hd := Option.some.inj (hh.symm.trans hhd)
    exact hcut
  · have hstatus : Status.errMalformed = s.status := congrArg State.status hemit
    exact absurd (hstatus.trans hb) (by decide)

end CutShort

/-- Settles O35: a packet cut short raises, and a whole one is emitted, stops, or leaves the engine busy. -/
theorem malformedStreamExactlyWhenCutShort : Obligations.MalformedStreamExactlyWhenCutShort := by
  intro s h hb hp hop hi hread
  have hh : s.inByte s.ip = some h := (inByte_eq hi).trans hread
  rw [← payloadPastEnd_packetSize_iff]
  refine ⟨fun hraise => ?_, exec_dec_raises hb hp hop hh⟩
  exact payloadPastEnd_of_decoderFillStep_raises hb hh ((exec_decoderFillStep hb hp hop hi).symm.trans hraise)

/-! ## Where an exception can come from (R103 to R106) -/

/-- What `STATUS` may be after the instruction `i` of an operation that runs in `s`: each exception only where it is
listed (R104, R105). -/
def ListedStatus (i : Instr) (s : State) : Status → Prop
  | .errMalformed => isPacket i = true ∨ (i = .dec ∧ s.op = 1 ∧ s.phase = .fill ∧ s.ip < s.inLen)
  | .errAlloc => (i = .enc ∨ i = .dec) ∧ s.phase = .size ∧ s.inLen ≤ s.ip ∧ s.outCap < s.acc
  | .idle | .busy | .done => True

section Listed
variable {i : Instr} {s t : State}

theorem listedStatus_of_busy {st : Status} (h : st = .busy) : ListedStatus i s st := by
  subst h
  trivial

theorem encodedSizeStep_status (ht : encodedSizeStep s = .next t) : t.status = s.status := by
  obtain ⟨_, -, rfl⟩ := encodedSizeStep_next ht
  rfl

theorem decodedSizeStep_status (ht : decodedSizeStep s = .next t) : t.status = s.status := by
  obtain ⟨_, -, rfl⟩ := decodedSizeStep_next ht
  rfl

theorem encoderFillStep_status (ht : encoderFillStep s = .next t) : t.status = s.status := by
  obtain ⟨_, _, -, -, -, rfl⟩ := encoderFillStep_next ht
  rfl

theorem decoderFillStep_status (ht : decoderFillStep s = .next t) :
    t.status = .errMalformed ∨ t.status = s.status := by
  obtain ⟨_, -, ⟨-, rfl⟩ | ⟨-, _, -, -, -, -, rfl⟩⟩ := decoderFillStep_next ht
  · exact .inl rfl
  · exact .inr rfl

/-- The end of the size pass raises `AllocationFailure` or begins the fill pass (R82, R105). -/
theorem endSizePass_status (s : State) :
    (s.outCap < s.acc ∧ s.endSizePass.status = .errAlloc) ∨ s.endSizePass.status = s.status := by
  by_cases hcap : s.outCap < s.acc
  · exact .inl ⟨hcap, congrArg State.status (endSizePass_raises hcap)⟩
  · right
    rw [endSizePass_fills (Nat.not_lt.mp hcap)]

/-- A packet's meaning raises `MalformedStream` or emits (R75, R76). -/
theorem raiseOrEmit_status {cut : Prop} [Decidable cut] {bytes : List Byte} {covered : Nat}
    (ht : (if cut then .next (s.raise .malformedStream) else s.emit bytes covered) = Host.Outcome.next t) :
    t.status = .errMalformed ∨ t.status = s.status := by
  split at ht
  · cases ht
    exact .inl rfl
  · obtain ⟨-, rfl⟩ := emit_next ht
    exact .inr rfl

/-- A packet raises nothing but `MalformedStream`. -/
theorem exec_packet_listedStatus (hb : s.status = .busy) (hi : isPacket i = true) (ht : exec i s = .next t) :
    ListedStatus i s t.status := by
  have hstatus : t.status = .errMalformed ∨ t.status = s.status := by
    cases i with
    | run c v => exact raiseOrEmit_status ht
    | lit payload => exact raiseOrEmit_status ht
    | enc | dec | pes | pds => cases hi
  obtain hm | hbusy := hstatus
  · rw [hm]
    exact .inl hi
  · exact listedStatus_of_busy (hbusy.trans hb)

/-- A row of the sequencing table leaves a listed status when its size step keeps the engine busy and its other steps,
taken where the table takes them, leave a listed one. -/
theorem sequence_listedStatus {code : CommandCode} {sizeStep endSize fillStep endFill : State → Out}
    (hb : s.status = .busy) (ht : sequence code sizeStep endSize fillStep endFill s = .next t)
    (hsize : sizeStep s = .next t → t.status = s.status)
    (hendSize : s.phase = .size → s.inLen ≤ s.ip → endSize s = .next t → ListedStatus i s t.status)
    (hfill : s.op = code → s.phase = .fill → s.ip < s.inLen → fillStep s = .next t → ListedStatus i s t.status)
    (hendFill : endFill s = .next t → ListedStatus i s t.status) : ListedStatus i s t.status := by
  rcases sequence_next ht with ⟨hb', -⟩ | ⟨-, -, rfl⟩ | ⟨-, -, -, -, ht⟩ | ⟨-, -, hp, hend, ht⟩ |
    ⟨-, hop, hp, hi, ht⟩ | ⟨-, -, -, -, ht⟩
  · exact absurd hb hb'
  · exact listedStatus_of_busy hb
  · exact listedStatus_of_busy ((hsize ht).trans hb)
  · exact hendSize hp hend ht
  · exact hfill hop hp hi ht
  · exact hendFill ht

/-- `ENC` and `DEC` fail the allocation at the end of the size pass and nowhere else. -/
theorem endSizePass_listedStatus (hi : i = .enc ∨ i = .dec) (hb : s.status = .busy) (hp : s.phase = .size)
    (hend : s.inLen ≤ s.ip) : ListedStatus i s s.endSizePass.status := by
  obtain ⟨hcap, halloc⟩ | hbusy := endSizePass_status s
  · rw [halloc]
    exact ⟨hi, hp, hend, hcap⟩
  · exact listedStatus_of_busy (hbusy.trans hb)

theorem exec_enc_listedStatus (hb : s.status = .busy) (ht : exec .enc s = .next t) :
    ListedStatus .enc s t.status := by
  refine sequence_listedStatus hb ((exec_enc s).symm.trans ht) encodedSizeStep_status ?_ ?_ ?_
  · rintro hp hend ⟨⟩
    exact endSizePass_listedStatus (.inl rfl) hb hp hend
  · exact fun _ _ _ ht => listedStatus_of_busy ((encoderFillStep_status ht).trans hb)
  · rintro ⟨⟩
    trivial

theorem exec_dec_listedStatus (hb : s.status = .busy) (ht : exec .dec s = .next t) :
    ListedStatus .dec s t.status := by
  refine sequence_listedStatus hb ((exec_dec s).symm.trans ht) decodedSizeStep_status ?_ ?_ ?_
  · rintro hp hend ⟨⟩
    exact endSizePass_listedStatus (.inr rfl) hb hp hend
  · intro hop hp hi ht
    obtain hm | hbusy := decoderFillStep_status ht
    · rw [hm]
      exact .inr ⟨rfl, hop, hp, hi⟩
    · exact listedStatus_of_busy (hbusy.trans hb)
  · rintro ⟨⟩
    trivial

/-- A command with a size pass alone raises nothing (R106). -/
theorem prediction_listedStatus {code : CommandCode} {sizeStep : State → Out} (hb : s.status = .busy)
    (ht : sequence code sizeStep (fun s => .next s.endPrediction) noStep noStep s = .next t)
    (hsize : sizeStep s = .next t → t.status = s.status) : ListedStatus i s t.status := by
  refine sequence_listedStatus hb ht hsize ?_ nofun nofun
  rintro - - ⟨⟩
  trivial

theorem exec_listedStatus (i : Instr) (hb : s.status = .busy) (ht : exec i s = .next t) :
    ListedStatus i s t.status := by
  cases i with
  | run c v => exact exec_packet_listedStatus hb rfl ht
  | lit payload => exact exec_packet_listedStatus hb rfl ht
  | enc => exact exec_enc_listedStatus hb ht
  | dec => exact exec_dec_listedStatus hb ht
  | pes => exact prediction_listedStatus hb ((exec_pes s).symm.trans ht) encodedSizeStep_status
  | pds => exact prediction_listedStatus hb ((exec_pds s).symm.trans ht) decodedSizeStep_status

end Listed

/-- Settles O38: the two clauses are the listed status at the two error codes. -/
theorem exceptionsAreRaisedOnlyWhereListed : Obligations.ExceptionsAreRaisedOnlyWhereListed := by
  intro i s t hb ht
  have hlisted := exec_listedStatus i hb ht
  exact ⟨fun hm => by rwa [hm] at hlisted, fun ha => by rwa [ha] at hlisted⟩

/-! ## What an exception leaves (R109, R110, R117) -/

/-- Settles O37: by the laws of `raise`; the ports and the register's code are read off the status. -/
theorem exceptionEntryEndsTheOperation : Obligations.ExceptionEntryEndsTheOperation := by
  intro s e
  refine ⟨?code, ?port, rfl, rfl, ⟨rfl, rfl, rfl⟩, rfl, fun _ => ite_self _⟩
  case code => cases e <;> rfl
  case port => cases e <;> rfl

/-- With no move of the host an engine that is not busy stays as it is (R117). -/
theorem step_idle {s : State} (hb : s.status ≠ .busy) (hhost : s.host = []) : step s = .next s :=
  (step_noMove hhost).trans (engineStep_notBusy hb)

/-- Settles O40: by induction on the number of steps, each of which leaves the state as it is. -/
theorem idleEngineKeepsAllState : Obligations.IdleEngineKeepsAllState := by
  intro s k hb hhost
  induction k with
  | zero => rfl
  | succ k ih => exact (runFor_succ (step_idle hb hhost) k).trans ih

end Sys2Proof.Machine

/-! # Streams one after another (R125)

A packet carries nothing into the next one, so what follows a stream is decoded on its own. Canonicity is lost where the
last packet of one stream and the first of the next would have been a single packet. -/

namespace Sys2Proof.Machine

/-- What follows a valid stream is decoded as a stream of its own, valid or not (R125). -/
theorem dec_append {y z : List Byte} (hz : dec y = some z) (rest : List Byte) :
    dec (y ++ rest) = (dec rest).map (z ++ ·) := by
  obtain ⟨ps, hall, rfl⟩ := exists_packets_of_dec hz
  obtain rfl : streamOutput ps = z := Option.some.inj ((dec_encodeStream hall).symm.trans hz)
  clear hz
  induction ps with
  | nil => exact Option.map_id'.symm
  | cons p ps ih =>
    obtain ⟨hp, hps⟩ := List.forall_mem_cons.mp hall
    rw [encodeStream_cons, List.append_assoc, dec_packetBytes_append hp, ih hps, Option.map_map, streamOutput_cons]
    simp only [Function.comp_def, List.append_assoc]

/-- Settles O22: the second stream is decoded on its own, and two literals of the byte 7 would have been one run. -/
theorem validStreamsConcatenate : Obligations.ValidStreamsConcatenate := by
  refine ⟨fun y y' z z' hz hz' => ?concat, [0x01, 0x07], [0x01, 0x07], ?merge⟩
  case concat =>
    have hcat : dec (y ++ y') = some (z ++ z') := by rw [dec_append hz, hz', Option.map_some]
    exact ⟨hcat, (validStream_iff_dec _).mpr ⟨_, hcat⟩⟩
  case merge => decide

end Sys2Proof.Machine
